-- ==== Sys2Proof/Word.lean ====
section
/-! DEFINITION. The value types of the core: bytes, bus words, register bytes (a value or ⊥), blocks and key-schedule words (00_scope.md R8, R12, R16, R17; 10_state.md R33). -/

namespace Sys2Proof

/-- An unsigned 8-bit value (R12). -/
abbrev Byte := BitVec 8

/-- A 32-bit bus word, command word or status word (R40, R60, R29). -/
abbrev Word := BitVec 32

/-- One byte of a data register. R33: "Every byte of ST, RK, CK, BA, BB, BY and W is either a value 0..255 or ⊥ (no value)"; and a ⊥ byte carries a pattern all the same: "The hardware always holds some bit pattern, but the spec leaves it unspecified" (notes/assumptions/1.md). -/
inductive RegByte where
  /-- A value 0..255. -/
  | value (b : Byte)
  /-- ⊥, with the bit pattern that the hardware holds there and the spec leaves unspecified. -/
  | bottom (pattern : Byte)
  deriving DecidableEq, Repr

/-- A 16-byte State or round key, column-major: byte `i` is at row `i mod 4`, column `i div 4` (R16). -/
abbrev Block := Vector Byte 16

/-- A key-schedule Word: "a 4-byte unit used in key-schedule bookkeeping" (R17). -/
abbrev KWord := Vector Byte 4

end Sys2Proof
end

