-- ==== Sys2Proof/Machine/Bytes.lean ====
section
/-! DEFINITION. The little-endian byte order of the bus, decided once (20_memory.md R42), and register bytes: the pattern each holds, and whether it is a value or ⊥ (10_state.md R33). -/

namespace Sys2Proof

/-- The bits a register byte holds, be it a value or ⊥ (R33: "The hardware always holds some bit pattern"). -/
def RegByte.pattern : RegByte → Byte
  | .value b => b
  | .bottom p => p

/-- The byte is a value and not ⊥ (R33). -/
def RegByte.held : RegByte → Bool
  | .value _ => true
  | .bottom _ => false

end Sys2Proof

namespace Sys2Proof.Machine

/-- Byte `j` of a bus word: bits `[8j+7:8j]` (R42). -/
def byteOf (v : Word) (j : Nat) : Byte := v.extractLsb' (8 * j) 8

/-- The bus word of four bytes in window order: `b0 | (b1 << 8) | (b2 << 16) | (b3 << 24)` (R42). -/
def wordOf (b0 b1 b2 b3 : Byte) : Word :=
  b0.setWidth 32 ||| (b1.setWidth 32 <<< 8) ||| (b2.setWidth 32 <<< 16) ||| (b3.setWidth 32 <<< 24)

/-- The vector whose entry `i` is `f i`. (Irreducible so that no proof evaluates a vector where it compares two states; `tabulate_getElem` says all about it.) -/
@[irreducible] def tabulate {α : Type} {n : Nat} (f : Fin n → α) : Vector α n := Vector.ofFn f

/-- Register bytes that all hold the given values (none of them is ⊥). -/
def known {n : Nat} (v : Vector Byte n) : Vector RegByte n := tabulate fun i => .value v[i]

/-- The patterns that the bytes of a register hold. -/
def patterns {n : Nat} (v : Vector RegByte n) : Vector Byte n := tabulate fun i => v[i].pattern

/-- No byte of the list is ⊥ (R33). -/
def allHeld (l : List RegByte) : Bool := l.all RegByte.held

end Sys2Proof.Machine
end

