-- ==== Sys2Proof/Config.lean ====
section
/-! DEFINITION. What an implementation fixes and the spec leaves OPEN (00_scope.md R10). LAT(op) and the pattern of a byte that EXPANDKEY turns into ⊥ are the free values below; BASE and N_INST are arguments of Machine/System.lean (the base of each instance, the length of the list of instances). -/

namespace Sys2Proof

/-- `LAT(op)` (R10, R196): for how many host bus cycles STATUS.BUSY reads 1 after a command of opcode `op` is issued. It has no body: nothing constrains it but that it is finite. It "may depend on operand values" (R196), so it also takes `State.draws`, the number of the draw: two issues of one opcode need not have one latency. DESIGN CHOICE: operand values and the instance are no arguments, so equal opcode and equal number give equal latency, in two instances and for two operand values alike (notes/assumptions/2.md). -/
opaque Config.latency (op : BitVec 4) (draw : Nat) : Nat

/-- The bit pattern of a byte of W that EXPANDKEY turns into ⊥ (R146, D18), as byte `4i + j` for `W[i][j]`: "The hardware always holds some bit pattern, but the spec leaves it unspecified" (R33), and a chip "may return stale words of an older schedule" there (U3). It has no body: nothing constrains it. It takes the number of the draw, so two EXPANDKEYs need not leave one pattern (notes/assumptions/2.md). -/
opaque Config.freeByte (draw byte : Nat) : Byte

end Sys2Proof
end

