-- ==== Sys2Proof/Syntax.lean ====
section
/-! DEFINITION. The commands of the core, one constructor per row of spec/opcode_table.json (30_encoding.md R65), with the operands the decoder of R70 gives each. -/

namespace Sys2Proof

/-- A command, the core's instruction (R18). A length field is a byte count and a round index is a number (R62, R63: unsigned, zero-extended, not scaled). A field an opcode does not use is no operand (R66). -/
inductive Instr where
  /-- GFMUL, OP 0x1 (R81). -/
  | gfmul
  /-- SBOX, OP 0x2 (R92). -/
  | sbox
  /-- SUBBYTES, OP 0x3 (R94). -/
  | subbytes (slen : Nat)
  /-- SHIFTROWS, OP 0x4 (R111). -/
  | shiftrows (slen : Nat)
  /-- MIXCOLUMNS, OP 0x5 (R121). -/
  | mixcolumns (slen : Nat)
  /-- ADDROUNDKEY, OP 0x6 (R131). -/
  | addroundkey (slen klen : Nat)
  /-- EXPANDKEY, OP 0x7 (R146). -/
  | expandkey (klen : Nat)
  /-- LOADRK, OP 0x8 (R150). -/
  | loadrk (rnd : Nat)
  deriving DecidableEq, Repr

end Sys2Proof
end

