-- ==== Sys2Proof/WellFormed.lean ====
section
/-! DEFINITION. Which commands have an encoding: each operand fits its field (30_encoding.md R60). A length that the command's own check refuses (SLEN = 15, KLEN = 20) is still well formed: it is encodable, and the core reports it in STATUS.ERR. -/

namespace Sys2Proof

/-- SLEN and KLEN are 6-bit fields, 0..63 (R60, R63). -/
abbrev fitsLength (n : Nat) : Prop := n < 64

/-- RND is a 4-bit field, 0..15 (R60, R62). -/
abbrev fitsRound (r : Nat) : Prop := r < 16

/-- Every operand fits the field that holds it. -/
def Instr.wf : Instr → Bool
  | .gfmul => true
  | .sbox => true
  | .subbytes slen => decide (fitsLength slen)
  | .shiftrows slen => decide (fitsLength slen)
  | .mixcolumns slen => decide (fitsLength slen)
  | .addroundkey slen klen => decide (fitsLength slen) && decide (fitsLength klen)
  | .expandkey klen => decide (fitsLength klen)
  | .loadrk rnd => decide (fitsRound rnd)

end Sys2Proof
end

