-- ==== Sys2Proof/Decode.lean ====
section
/-! DEFINITION. The decoder of 30_encoding.md R70, total on every 32-bit word and on any bytes, and the encoder from the same field table (R60, R65). -/

namespace Sys2Proof

open Sys2Proof.Machine (byteOf wordOf)

/-- Why bits are no command. The first two are the decoder's verdict `Illegal` of R70; the third is for byte lists that are not a whole command word (R69: every command is one 32-bit word). -/
inductive Illegal where
  /-- A bit of `cmd[15:14]` or `cmd[31:22]` is set (R64). -/
  | reservedBits
  /-- OP is 0x0 or 0x9..0xF (R68). -/
  | reservedOpcode (op : Nat)
  /-- Fewer than four bytes: no command word is there. -/
  | truncated
  deriving DecidableEq, Repr

/-- What the decoder answers: "Command | Illegal" (R70). -/
inductive Decoded where
  | command (i : Instr)
  | illegal (why : Illegal)
  deriving DecidableEq, Repr

/-- OP = `cmd[3:0]` (R61). -/
def opField (cmd : Word) : BitVec 4 := cmd.extractLsb' 0 4

/-- RND = `cmd[7:4]` (R62). -/
def rndField (cmd : Word) : BitVec 4 := cmd.extractLsb' 4 4

/-- SLEN = `cmd[13:8]` (R63). -/
def slenField (cmd : Word) : BitVec 6 := cmd.extractLsb' 8 6

/-- KLEN = `cmd[21:16]` (R63). -/
def klenField (cmd : Word) : BitVec 6 := cmd.extractLsb' 16 6

/-- A reserved bit of the command word, `cmd[15:14]` or `cmd[31:22]`, is set (R64). -/
def reservedSet (cmd : Word) : Bool :=
  decide (cmd.extractLsb' 14 2 ≠ 0) || decide (cmd.extractLsb' 22 10 ≠ 0)

/-- The command of a legal opcode, with the operands it uses (R65, R66). -/
def decodeOp (op rnd slen klen : Nat) : Decoded :=
  match op with
  | 1 => .command .gfmul
  | 2 => .command .sbox
  | 3 => .command (.subbytes slen)
  | 4 => .command (.shiftrows slen)
  | 5 => .command (.mixcolumns slen)
  | 6 => .command (.addroundkey slen klen)
  | 7 => .command (.expandkey klen)
  | 8 => .command (.loadrk rnd)
  | n => .illegal (.reservedOpcode n)

/-- `decode` of R70. -/
def decode (cmd : Word) : Decoded :=
  if reservedSet cmd then .illegal .reservedBits
  else decodeOp (opField cmd).toNat (rndField cmd).toNat (slenField cmd).toNat (klenField cmd).toNat

/-- The decoder on bytes in bus order (R42, R69): the first four are one command word, the rest is left over. -/
def decodeBytes : List Byte → Decoded × List Byte
  | b0 :: b1 :: b2 :: b3 :: rest => (decode (wordOf b0 b1 b2 b3), rest)
  | bs => (.illegal .truncated, bs)

/-- The CMD32 word of the fields, MSB first: `0000000000 KKKKKK 00 SSSSSS RRRR OOOO` (R60). -/
def packFields (op rnd slen klen : Nat) : Word :=
  ((BitVec.ofNat 6 klen).setWidth 32 <<< 16) ||| ((BitVec.ofNat 6 slen).setWidth 32 <<< 8) |||
    ((BitVec.ofNat 4 rnd).setWidth 32 <<< 4) ||| (BitVec.ofNat 4 op).setWidth 32

/-- The opcode of each command (R65). -/
def opcode : Instr → Nat
  | .gfmul => 0x1
  | .sbox => 0x2
  | .subbytes _ => 0x3
  | .shiftrows _ => 0x4
  | .mixcolumns _ => 0x5
  | .addroundkey _ _ => 0x6
  | .expandkey _ => 0x7
  | .loadrk _ => 0x8

/-- The canonical word of a command: its opcode and operands in their fields, every unused field 0 (R60, R65, R67). -/
def encode (i : Instr) : Word :=
  match i with
  | .gfmul => packFields (opcode i) 0 0 0
  | .sbox => packFields (opcode i) 0 0 0
  | .subbytes slen => packFields (opcode i) 0 slen 0
  | .shiftrows slen => packFields (opcode i) 0 slen 0
  | .mixcolumns slen => packFields (opcode i) 0 slen 0
  | .addroundkey slen klen => packFields (opcode i) 0 slen klen
  | .expandkey klen => packFields (opcode i) 0 0 klen
  | .loadrk rnd => packFields (opcode i) rnd 0 0

/-- The 32-bit word of an opcode-table row's `nbits` bits: every bit above `nbits` is 0. -/
def tableWord (nbits w : Nat) : Word := BitVec.ofNat 32 (w % 2 ^ nbits)

/-- A command word as four bytes in bus order, the first at the lowest offset (R42). -/
def commandBytes (cmd : Word) : List Byte := [byteOf cmd 0, byteOf cmd 1, byteOf cmd 2, byteOf cmd 3]

/-- What the decoder reads from an opcode-table word, laid out in bus order. -/
def decodeTableWord (nbits w : Nat) : Option Instr :=
  match decodeBytes (commandBytes (tableWord nbits w)) with
  | (.command i, _) => some i
  | (.illegal _, _) => none

end Sys2Proof
end

