-- ==== Sys2Proof/Machine/State.lean ====
section
/-! DEFINITION. The state of one instance of the core as 10_state.md gives it, the host's bus as data beside it, the reasons a step can stop, and the state right after reset (R38, R190). -/

namespace Sys2Proof.Machine

/-- The fields of the STATUS register (R29). The reserved bits are no state: they read as 0 (`statusWord`). -/
structure Status where
  /-- STATUS.BUSY, bit 0. -/
  busy : Bool
  /-- STATUS.ERR, bits 10:8. -/
  err : BitVec 3
  /-- STATUS.KSV, bit 16. -/
  ksv : Bool
  /-- STATUS.KS_NK, bits 23:20. -/
  ksNk : BitVec 4
  /-- STATUS.KS_NR, bits 27:24. -/
  ksNr : BitVec 4
  deriving DecidableEq, Repr

/-- One access by the host to the register window at a 10-bit byte offset (R40). `bytes` is its width in bytes: only 4 is performed (R45). -/
inductive Access where
  /-- `MemRead(off, bytes)`. -/
  | read (off : BitVec 10) (bytes : Nat)
  /-- `MemWrite(off, bytes, v)`. -/
  | write (off : BitVec 10) (bytes : Nat) (v : Word)
  deriving DecidableEq, Repr

/-- What the host does in one bus cycle (R20, R199). -/
inductive HostAction where
  /-- One access to the window. -/
  | access (a : Access)
  /-- The host's macro POLL (R73): read STATUS; while bit 0 is 1, do so again in the next bus cycle. -/
  | poll
  /-- A bus cycle without an access. -/
  | idle
  /-- Reset is applied (R190). -/
  | reset
  /-- The host makes an access at the same time as reset (R191). -/
  | resetDuring (a : Access)
  deriving DecidableEq, Repr

/-- What the bus gave the host in its last bus cycle. -/
inductive Response where
  /-- No access was made. -/
  | quiet
  /-- A read returned this word (R40). -/
  | data (v : Word)
  /-- A write completed without an error response (R48). -/
  | written
  deriving DecidableEq, Repr

/-- What the model records about a run and goes on: the treatment `fault` of 93_implementation_defined.md ("the model records a fault, which is never final and refutes the observation") where a ⊥ byte is read (R33, R180, U1 to U3). -/
inductive ModelFault where
  /-- A command's success path read a ⊥ operand byte (R33, R180, U1). -/
  | commandUsedBottom
  /-- A host read met a window word that holds a ⊥ byte (R49, R180, U2, U3). -/
  | hostReadBottom
  deriving DecidableEq, Repr

/-- One instance of the core (R21 to R31, R33, R39) and, after it, the model's own fields: the host's bus, the latency countdown, and the record of model faults. -/
structure State where
  /-- The State register, 16 bytes (R23). -/
  ST : Vector RegByte 16
  /-- The round-key register, 16 bytes (R24). -/
  RK : Vector RegByte 16
  /-- The cipher-key register, 32 bytes (R25). -/
  CK : Vector RegByte 32
  /-- First byte operand (R26). -/
  BA : RegByte
  /-- Second byte operand (R26). -/
  BB : RegByte
  /-- Byte result (R26). -/
  BY : RegByte
  /-- Key-schedule memory, 60 words of 4 bytes (R27). -/
  W : Vector (Vector RegByte 4) 60
  /-- The command register (R28). -/
  CMD : Word
  /-- The status register (R29). -/
  status : Status
  /-- The in-flight command (R39). -/
  pending : Option Word
  /-- The model's own: host bus cycles left before the core's step commits the pending command (R196, `Config.latency`). -/
  wait : Nat
  /-- The model's own: how many free values have been drawn, one by each issue of a command (`Config.latency`) and one by each successful EXPANDKEY (`Config.freeByte`). -/
  draws : Nat
  /-- The model's own: what the host does next on the bus, one entry per bus cycle, in the host's program order (R52). -/
  queue : List HostAction
  /-- The model's own: what the host's last bus cycle gave it. -/
  resp : Response
  /-- The model's own: the model faults recorded so far, oldest first (R180, notes/assumptions/17.md). -/
  recorded : List ModelFault
  deriving DecidableEq, Repr

/-- The accesses that the spec leaves undefined and without an effect, and tells the model to treat "as a fault" (R180; 93_implementation_defined.md U4 to U6). Each is SAFE: the model stops, and no claim about a next state follows. -/
inductive Fault where
  /-- Raised by a host access whose offset is not a multiple of 4 (R44, U4). Safe. -/
  | misaligned
  /-- Raised by a host access that is not 32 bits wide (R45, U4). Safe. -/
  | badWidth
  /-- Raised by a host access other than a STATUS or CMD read while BUSY = 1 (R197, R199, U5). Safe. -/
  | busyAccess
  /-- Raised by a host access at the same time as reset (R191, U6). Safe. -/
  | accessDuringReset
  deriving DecidableEq, Repr

/-- Reasons to refuse an instruction. Every command of the opcode table has its meaning, so no step of this model answers with one. -/
inductive Refusal where
  /-- Raised by an arm of `exec` for an instruction without a meaning yet (there is none). Safe. -/
  | notModelled (mnemonic : String)
  deriving DecidableEq, Repr

/-- STATUS after reset: 0x00000000 (R38, R190). -/
def Status.reset : Status := ⟨false, 0, false, 0, 0⟩

/-- The state right after reset (R38, R190): every data byte ⊥, CMD and STATUS 0, no pending command. DESIGN CHOICE: the pattern in each ⊥ byte is 0x00, because the spec leaves it unspecified (R33, notes/assumptions/1.md). The model's own fields: nothing waits, no free value has been drawn, the host has nothing queued, the bus is quiet, nothing is recorded (notes/assumptions/2.md, 3.md, 17.md). -/
def State.reset : State where
  ST := Vector.replicate 16 (.bottom 0x00)
  RK := Vector.replicate 16 (.bottom 0x00)
  CK := Vector.replicate 32 (.bottom 0x00)
  BA := .bottom 0x00
  BB := .bottom 0x00
  BY := .bottom 0x00
  W := Vector.replicate 60 (Vector.replicate 4 (.bottom 0x00))
  CMD := 0
  status := Status.reset
  pending := none
  wait := 0
  draws := 0
  queue := []
  resp := .quiet
  recorded := []

end Sys2Proof.Machine
end

