-- ==== Sys2Proof/Machine/Flags.lean ====
section
/-! DEFINITION. STATUS: its bits as the host reads them (10_state.md R29), the error codes (60_exceptions.md R170), and the checks that decide a command's code (R171). The core has no other flag (R30). -/

namespace Sys2Proof.Machine

/-- The errors a command can report (R170). -/
inductive CmdError where
  /-- SLEN ≠ 16, or KLEN ≠ 16 for ADDROUNDKEY. -/
  | invalidBlockLength
  /-- KLEN of EXPANDKEY is not 16, 24 or 32. -/
  | invalidKeyLength
  /-- The word is no command (R64, R68). -/
  | illegalCommand
  /-- LOADRK without a schedule, or of a round above Nr. -/
  | invalidRound
  deriving DecidableEq, Repr

/-- The code of STATUS.ERR for each error (R170). -/
def CmdError.code : CmdError → BitVec 3
  | .invalidBlockLength => 1
  | .invalidKeyLength => 2
  | .illegalCommand => 3
  | .invalidRound => 4

/-- The 32-bit STATUS word: BUSY [0], ERR [10:8], KSV [16], KS_NK [23:20], KS_NR [27:24], every reserved bit 0 (R29). -/
def statusWord (t : Status) : Word :=
  (t.ksNr.setWidth 32 <<< 24) ||| (t.ksNk.setWidth 32 <<< 20) ||| ((BitVec.ofBool t.ksv).setWidth 32 <<< 16) |||
    (t.err.setWidth 32 <<< 8) ||| (BitVec.ofBool t.busy).setWidth 32

/-- A state-operand or round-key-operand length is legal: 16 bytes (R63). -/
abbrev blockLength (n : Nat) : Prop := n = 16

/-- A cipher-key length is legal: 16, 24 or 32 bytes (R63, R143). -/
abbrev keyLength (n : Nat) : Prop := n = 16 ∨ n = 24 ∨ n = 32

/-- LOADRK may select round `r`: a schedule is there and `r ≤ KS_NR` (R150, R170). -/
abbrev roundAvailable (r : Nat) (t : Status) : Prop := t.ksv = true ∧ r ≤ t.ksNr.toNat

/-- The check of R171 on a decoded command: the error it reports, or `none` if its success path runs. It reads no operand byte (R33). -/
def check (i : Instr) (t : Status) : Option CmdError :=
  match i with
  | .gfmul => none
  | .sbox => none
  | .subbytes slen => if blockLength slen then none else some .invalidBlockLength
  | .shiftrows slen => if blockLength slen then none else some .invalidBlockLength
  | .mixcolumns slen => if blockLength slen then none else some .invalidBlockLength
  | .addroundkey slen klen => if blockLength slen ∧ blockLength klen then none else some .invalidBlockLength
  | .expandkey klen => if keyLength klen then none else some .invalidKeyLength
  | .loadrk rnd => if roundAvailable rnd t then none else some .invalidRound

end Sys2Proof.Machine
end

