-- ==== Sys2Proof/Machine/Ops.lean ====
section
/-! DEFINITION. The named operations over registers and the register window: the register map (20_memory.md R47), reading and writing it (R42, R48), issuing a command (R195), ending one with an error, with success, or completing it (60_exceptions.md R172, R173, R195), recording a model fault (R180), and reset (R190). The core takes no traps and has no trap return (R174, R175): `raise` and `complete` are its whole exception model. -/

namespace Sys2Proof.Machine

/-- Where a byte of the window lives (R47). -/
inductive Loc where
  | st (i : Fin 16)
  | rk (i : Fin 16)
  | ck (i : Fin 32)
  | ba
  | bb
  | byResult
  | cmd (j : Fin 4)
  | status (j : Fin 4)
  | w (i : Fin 60) (j : Fin 4)
  | reserved
  deriving DecidableEq, Repr

/-- The register map, byte by byte (R47): every offset it does not name is reserved (R41). -/
def locate (a : Nat) : Loc :=
  if h : a < 0x010 then .st ⟨a, h⟩
  else if h₁ : a < 0x020 then .rk ⟨a - 0x010, by omega⟩
  else if h₂ : a < 0x040 then .ck ⟨a - 0x020, by omega⟩
  else if a = 0x040 then .ba
  else if a = 0x041 then .bb
  else if a = 0x042 then .byResult
  else if a = 0x043 then .reserved
  else if h₃ : a < 0x048 then .cmd ⟨a % 4, by omega⟩
  else if h₄ : a < 0x04C then .status ⟨a % 4, by omega⟩
  else if a < 0x050 then .reserved
  else if h₅ : a < 0x140 then .w ⟨(a - 0x050) / 4, by omega⟩ ⟨a % 4, by omega⟩
  else .reserved

/-- What a byte of the window reads as; a reserved byte reads 0 (R47, R48). -/
def readLoc (s : State) : Loc → RegByte
  | .st i => s.ST[i]
  | .rk i => s.RK[i]
  | .ck i => s.CK[i]
  | .ba => s.BA
  | .bb => s.BB
  | .byResult => s.BY
  | .cmd j => .value (byteOf s.CMD j)
  | .status j => .value (byteOf (statusWord s.status) j)
  | .w i j => s.W[i][j]
  | .reserved => .value 0

/-- The host's write of one byte: the read-write registers take it, read-only and reserved bytes ignore it (R36, R47, R48). CMD is written whole, by `issue`. -/
def writeLoc (s : State) (b : Byte) : Loc → State
  | .st i => { s with ST := s.ST.set i (.value b) }
  | .rk i => { s with RK := s.RK.set i (.value b) }
  | .ck i => { s with CK := s.CK.set i (.value b) }
  | .ba => { s with BA := .value b }
  | .bb => { s with BB := .value b }
  | .byResult => s
  | .cmd _ => s
  | .status _ => s
  | .w _ _ => s
  | .reserved => s

/-- The byte of the window at byte offset `a`. -/
def windowByte (s : State) (a : Nat) : RegByte := readLoc s (locate a)

/-- The word of `MemRead(off, 4)`: the patterns of the four bytes at `off`, little-endian (R42). -/
def readWord (s : State) (off : Nat) : Word :=
  wordOf (windowByte s off).pattern (windowByte s (off + 1)).pattern (windowByte s (off + 2)).pattern
    (windowByte s (off + 3)).pattern

/-- None of the four bytes at `off` is ⊥ (R49). -/
def wordHeld (s : State) (off : Nat) : Bool :=
  allHeld [windowByte s off, windowByte s (off + 1), windowByte s (off + 2), windowByte s (off + 3)]

/-- Byte `j` of `MemWrite(off, 4, v)` (R42). -/
def writeByte (s : State) (off : Nat) (v : Word) (j : Nat) : State :=
  writeLoc s (byteOf v j) (locate (off + j))

/-- `MemWrite(off, 4, v)` to a register other than CMD: its four bytes, little-endian (R42). -/
def writeWord (s : State) (off : Nat) (v : Word) : State :=
  writeByte (writeByte (writeByte (writeByte s off v 0) off v 1) off v 2) off v 3

/-- The window offset of CMD (R47). -/
def cmdOffset : BitVec 10 := 0x044

/-- The window offset of STATUS (R47). -/
def statusOffset : BitVec 10 := 0x048

/-- The host's write of CMD, with `n` bus cycles of BUSY = 1 to come: the word is recorded as the pending command, CMD reads it back, BUSY is 1 (R28, R39, R195). -/
def State.holdCommand (s : State) (v : Word) (n : Nat) : State :=
  { s with CMD := v, status := { s.status with busy := true }, pending := some v, wait := n }

/-- The host's write of CMD issues the command; how long BUSY stays 1 is the free value LAT(op) (R10, R195, R196), drawn by the opcode and the number of the draw alone (DESIGN CHOICE, notes/assumptions/2.md). -/
def State.issue (s : State) (v : Word) : State :=
  { s.holdCommand v (Config.latency (opField v) s.draws) with draws := s.draws + 1 }

/-- A model fault is recorded unless all is well, and the machine goes on (93_implementation_defined.md: "never final"). -/
def State.recordUnless (s : State) (ok : Bool) (f : ModelFault) : State :=
  { s with recorded := if ok then s.recorded else s.recorded ++ [f] }

/-- What the bus gives the host. -/
def State.respond (s : State) (r : Response) : State := { s with resp := r }

/-- What the host has still to do. -/
def State.setQueue (s : State) (q : List HostAction) : State := { s with queue := q }

/-- How many bus cycles the pending command still takes. -/
def State.setWait (s : State) (n : Nat) : State := { s with wait := n }

/-- STATUS.ERR takes a value, no other status bit changes (R30). -/
def State.setErr (s : State) (e : BitVec 3) : State := { s with status := { s.status with err := e } }

/-- `raise E`: STATUS.ERR <- code(E), and no other register, memory word or status field changes (R172). This is all that taking an error does; there is no trap to take and none to return from (R174, R175). -/
def State.raise (s : State) (e : CmdError) : State := s.setErr e.code

/-- A command that completes successfully writes ERR <- 0 (R30, R173). -/
def State.succeed (s : State) : State := s.setErr 0

/-- Completion, after the commit: BUSY <- 0 and the pending command becomes none (R195 step 3). -/
def State.complete (s : State) : State :=
  { s with status := { s.status with busy := false }, pending := none, wait := 0 }

/-- The reset step (R190, R191): every piece of the core's state takes its reset value. What the host does next, the numbering of the free values and the record of model faults are not the core's state and go on. -/
def State.applyReset (s : State) : State :=
  { State.reset with queue := s.queue, draws := s.draws, recorded := s.recorded }

end Sys2Proof.Machine
end

