-- ==== Sys2Proof/Machine/Operands.lean ====
section
/-! DEFINITION. The operands of the commands. A command names no register: each reads a fixed set (10_state.md R21, R35). An operand is the pattern its bytes hold; a ⊥ byte among them is recorded as a model fault (R33). -/

namespace Sys2Proof.Machine

/-- The State operand: all 16 bytes of ST (R23). -/
def readST (s : State) : Block := patterns s.ST

/-- The round-key operand: all 16 bytes of RK (R24). -/
def readRK (s : State) : Block := patterns s.RK

/-- The bytes of the cipher-key operand: `CK[0..klen-1]` and no other byte of CK (R25). -/
def keyBytes (s : State) (klen : Nat) : List RegByte := s.CK.toList.take klen

/-- The cipher-key operand (R25). -/
def readKey (s : State) (klen : Nat) : List Byte := (keyBytes s klen).map RegByte.pattern

/-- Byte `j` of schedule word `i`. There is no word above 59 (R27): in a state no run reaches, a byte that is not there is ⊥ with a free pattern (notes/assumptions/10.md). -/
def scheduleByte (s : State) (i : Nat) (j : Fin 4) : RegByte :=
  if h : i < 60 then s.W[i][j] else .bottom (Config.freeByte s.draws (4 * i + j.val))

/-- The schedule words `W[4r..4r+3]` as the 16 bytes of one operand: byte `4m + j` is `W[4r+m][j]` (R145). -/
def roundBytes (s : State) (r : Nat) : Vector RegByte 16 :=
  tabulate fun k : Fin 16 => scheduleByte s (4 * r + k.val / 4) ⟨k.val % 4, Nat.mod_lt _ (by decide)⟩

/-- The round-key operand of LOADRK (R145). -/
def readRound (s : State) (r : Nat) : Block := patterns (roundBytes s r)

/-- The state after a command has read these operand bytes: the model fault of R33 is recorded if one of them is ⊥. -/
def State.readsOperands (s : State) (l : List RegByte) : State := s.recordUnless (allHeld l) .commandUsedBottom

/-- ST takes a result, all 16 bytes at one commit (R34). -/
def State.setST (s : State) (b : Block) : State := { s with ST := known b }

/-- RK takes a result, all 16 bytes at one commit (R34). -/
def State.setRK (s : State) (b : Block) : State := { s with RK := known b }

/-- BY takes a byte result (R26). -/
def State.setBY (s : State) (b : Byte) : State := { s with BY := .value b }

/-- The schedule memory that holds exactly the given words from W[0] on, with every word above them ⊥ (R27, R146). The patterns of the ⊥ bytes are free values (R33, U3). -/
def scheduleMemory (draw : Nat) (ws : List KWord) : Vector (Vector RegByte 4) 60 :=
  tabulate fun i : Fin 60 =>
    match ws[i.val]? with
    | some w => known w
    | none => tabulate fun j : Fin 4 => .bottom (Config.freeByte draw (4 * i.val + j.val))

/-- W and the schedule fields of STATUS take a new key schedule at one commit (R31, R34, R146). -/
def State.setSchedule (s : State) (nk : Nat) (ws : List KWord) : State :=
  { s with
    W := scheduleMemory s.draws ws
    draws := s.draws + 1
    status := { s.status with ksv := true, ksNk := BitVec.ofNat 4 nk, ksNr := BitVec.ofNat 4 (nk + 6) } }

/-- The shape of SUBBYTES, SHIFTROWS and MIXCOLUMNS: ST is read whole, then overwritten with the transform's result (R23, R34), and ERR <- 0. -/
def transformST (f : Block → Block) (s : State) : Host.Outcome State Fault Refusal :=
  .next ((s.readsOperands s.ST.toList).setST (f (readST s))).succeed

end Sys2Proof.Machine
end

