-- ==== Sys2Proof/Machine/AddRoundKey.lean ====
section
/-! DEFINITION. The AddRoundKey function and the command ADDROUNDKEY (44_add_round_key.md R130 to R133). -/

namespace Sys2Proof.Machine

/-- `add_round_key(s, k)`: byte-wise XOR, positionally aligned (R130). -/
def addRoundKey (s k : Block) : Block := tabulate fun i => s[i] ^^^ k[i]

/-- ADDROUNDKEY(slen, klen) (R131): SLEN is checked before KLEN, and both before any operand byte is read (R171). -/
def execAddroundkey (slen klen : Nat) (s : State) : Host.Outcome State Fault Refusal :=
  if blockLength slen then
    if blockLength klen then
      .next ((s.readsOperands (s.ST.toList ++ s.RK.toList)).setST (addRoundKey (readST s) (readRK s))).succeed
    else .next (s.raise .invalidBlockLength)
  else .next (s.raise .invalidBlockLength)

end Sys2Proof.Machine
end

