-- ==== Sys2Proof/Machine/GfMultiply.lean ====
section
/-! DEFINITION. The GF(2^8) multiplier and the command GFMUL (40_gf_multiply.md R80 to R85). -/

namespace Sys2Proof.Machine

/-- One left shift of the running `a`, with the bit shifted out of position 7 folded back by 0x1B (R80). It is multiplication by 2 (R84). -/
def double (a : Byte) : Byte := if a &&& 0x80 ≠ 0 then (a <<< 1) ^^^ 0x1B else a <<< 1

/-- `n` iterations of the double-and-reduce loop from running values `a`, `b` and `acc` (R80). -/
def gfLoop : Nat → Byte → Byte → Byte → Byte
  | 0, _, _, acc => acc
  | n + 1, a, b, acc => gfLoop n (double a) (b >>> 1) (if b &&& 0x01 = 1 then acc ^^^ a else acc)

/-- `gf_multiply(a, b)`: "iterate 8 times" (R80). -/
def gfMultiply (a b : Byte) : Byte := gfLoop 8 a b 0

/-- GFMUL (R81): BY <- gf_multiply(BA, BB), ERR <- 0; a ⊥ operand is recorded as a model fault. -/
def execGfmul (s : State) : Host.Outcome State Fault Refusal :=
  .next ((s.readsOperands [s.BA, s.BB]).setBY (gfMultiply s.BA.pattern s.BB.pattern)).succeed

end Sys2Proof.Machine
end

