-- ==== Sys2Proof/Machine/KeySchedule.lean ====
section
/-! DEFINITION. The key-expansion engine: word helpers, the Rcon ROM, the expansion, the round-key slice, and the commands EXPANDKEY and LOADRK (45_key_schedule.md R140 to R152). -/

namespace Sys2Proof.Machine

/-- `rot_word(w)`: the bytes rotated left by one, byte 0 leftmost (R140). -/
def rotWord (w : KWord) : KWord := #v[w[1], w[2], w[3], w[0]]

/-- `sub_word(w)`: the S-box on each byte (R141). -/
def subWord (w : KWord) : KWord := tabulate fun i => subByte w[i]

/-- Byte-wise XOR of two words (R144). -/
def xorWord (a b : KWord) : KWord := tabulate fun i => a[i] ^^^ b[i]

/-- The Rcon ROM, `rc_byte(1..10)` (R142, R32). The engine reads this table and does not use the multiplier (R85, 90_conflicts.md C5). -/
def rconRom : List Byte := [0x01, 0x02, 0x04, 0x08, 0x10, 0x20, 0x40, 0x80, 0x1B, 0x36]

/-- `Rcon[k] = (rc_byte(k), 0, 0, 0)`, k from 1 to 10 (R142). -/
def rcon (k : Nat) : KWord := #v[rconRom.getD (k - 1) 0, 0, 0, 0]

/-- The word that is no word of a schedule: the value of a list position past its end, which no expansion of R144 reads. -/
def zeroWord : KWord := #v[0, 0, 0, 0]

/-- `temp` of step 2 for word `i`, from the previous word (R144). -/
def scheduleTemp (nk i : Nat) (prev : KWord) : KWord :=
  if i % nk = 0 then xorWord (subWord (rotWord prev)) (rcon (i / nk))
  else if nk = 8 ∧ i % nk = 4 then subWord prev
  else prev

/-- The next word after the words `ws`: `W[i] <- W[i-Nk] xor temp` for `i` their number (R144 step 2). -/
def nextWord (nk : Nat) (ws : List KWord) : KWord :=
  xorWord (ws.getD (ws.length - nk) zeroWord) (scheduleTemp nk ws.length (ws.getD (ws.length - 1) zeroWord))

/-- `n` more words of the schedule (R144 step 2). -/
def expandFrom (nk : Nat) : Nat → List KWord → List KWord
  | 0, ws => ws
  | n + 1, ws => expandFrom nk n (ws ++ [nextWord nk ws])

/-- Word `i` of the cipher key: its bytes `4i..4i+3` (R144 step 1). -/
def keyWord (key : List Byte) (i : Nat) : KWord := tabulate fun j => key.getD (4 * i + j.val) 0

/-- `expand_key(key)` for a key of `4·nk` bytes: `4·(Nr+1)` words, Nr = nk + 6 (R144). -/
def expandKey (nk : Nat) (key : List Byte) : List KWord :=
  expandFrom nk (4 * (nk + 7) - nk) ((List.range nk).map (keyWord key))

/-- EXPANDKEY(klen) (R146): Nk = klen / 4, Nr = Nk + 6. Only `CK[0..klen-1]` is read. -/
def execExpandkey (klen : Nat) (s : State) : Host.Outcome State Fault Refusal :=
  if keyLength klen then
    .next ((s.readsOperands (keyBytes s klen)).setSchedule (klen / 4) (expandKey (klen / 4) (readKey s klen))).succeed
  else .next (s.raise .invalidKeyLength)

/-- LOADRK(r) (R150): RK <- round_key(W, r). In a state a run can reach the words read hold values (R150); in any other state a ⊥ byte among them is recorded as a model fault (R33). -/
def execLoadrk (rnd : Nat) (s : State) : Host.Outcome State Fault Refusal :=
  if roundAvailable rnd s.status then
    .next ((s.readsOperands (roundBytes s rnd).toList).setRK (readRound s rnd)).succeed
  else .next (s.raise .invalidRound)

end Sys2Proof.Machine
end

