-- ==== Sys2Proof/Machine/MixColumns.lean ====
section
/-! DEFINITION. The MixColumns function and the command MIXCOLUMNS (43_mix_columns.md R120 to R122). -/

namespace Sys2Proof.Machine

/-- The MixColumns matrix MIXM, row by row (R120). -/
def mixMatrix : Vector KWord 4 :=
  #v[#v[0x02, 0x03, 0x01, 0x01],
     #v[0x01, 0x02, 0x03, 0x01],
     #v[0x01, 0x01, 0x02, 0x03],
     #v[0x03, 0x01, 0x01, 0x02]]

/-- One entry of the matrix product: the XOR of `gf_multiply(row[k], col[k])` for k in 0..3 (R120). -/
def mixEntry (row col : KWord) : Byte :=
  gfMultiply row[0] col[0] ^^^ gfMultiply row[1] col[1] ^^^ gfMultiply row[2] col[2] ^^^ gfMultiply row[3] col[3]

/-- Column `c` of a block: the four bytes `s[4c..4c+3]` (R16). -/
def column (s : Block) (c : Fin 4) : KWord := tabulate fun i => s[4 * c.val + i.val]'(by omega)

/-- `mix_columns(s)`: byte `4c + i` is row `i` of the matrix times column `c` (R120). -/
def mixColumns (s : Block) : Block :=
  tabulate fun j => mixEntry (mixMatrix[j.val % 4]'(by omega)) (column s ⟨j.val / 4, by omega⟩)

/-- MIXCOLUMNS(slen) (R121). -/
def execMixcolumns (slen : Nat) (s : State) : Host.Outcome State Fault Refusal :=
  if blockLength slen then transformST mixColumns s else .next (s.raise .invalidBlockLength)

end Sys2Proof.Machine
end

