-- ==== Sys2Proof/Machine/ShiftRows.lean ====
section
/-! DEFINITION. The ShiftRows function and the command SHIFTROWS (42_shift_rows.md R110 to R113). -/

namespace Sys2Proof.Machine

/-- `shift_rows(s)`: output byte `j`, at row `r = j mod 4` and column `c = j div 4`, is input byte `r + 4·((c + r) mod 4)` (R110). -/
def shiftRows (s : Block) : Block :=
  tabulate fun j => s[j.val % 4 + 4 * ((j.val / 4 + j.val % 4) % 4)]'(by omega)

/-- SHIFTROWS(slen) (R111). -/
def execShiftrows (slen : Nat) (s : State) : Host.Outcome State Fault Refusal :=
  if blockLength slen then transformST shiftRows s else .next (s.raise .invalidBlockLength)

end Sys2Proof.Machine
end

