-- ==== Sys2Proof/Machine/Dispatch.lean ====
section
/-! DEFINITION. What each command does: one arm per constructor of Instr. -/

namespace Sys2Proof.Machine

def exec (i : Instr) (s : State) : Host.Outcome State Fault Refusal :=
  match i with
  | .gfmul => Sys2Proof.Machine.execGfmul s
  | .sbox => Sys2Proof.Machine.execSbox s
  | .subbytes slen => Sys2Proof.Machine.execSubbytes slen s
  | .shiftrows slen => Sys2Proof.Machine.execShiftrows slen s
  | .mixcolumns slen => Sys2Proof.Machine.execMixcolumns slen s
  | .addroundkey slen klen => Sys2Proof.Machine.execAddroundkey slen klen s
  | .expandkey klen => Sys2Proof.Machine.execExpandkey klen s
  | .loadrk rnd => Sys2Proof.Machine.execLoadrk rnd s

end Sys2Proof.Machine
end

