-- ==== Sys2Proof/Machine/Command.lean ====
section
/-! DEFINITION. The core's step for the pending command (70_reset_and_hazards.md R195). -/

namespace Sys2Proof.Machine

/-- Steps 1 and 2 of R195: decode the command word (R70, R171); an illegal word raises IllegalCommand (R68), a command has its meaning. -/
def runCommand (cmd : Word) (s : State) : Host.Outcome State Fault Refusal :=
  match decode cmd with
  | .command i => exec i s
  | .illegal _ => .next (s.raise .illegalCommand)

/-- The core's step (R195): run the command, commit its writes and ERR, then complete. (No meaning stops, `exec_eq` in Laws/Commands.lean; one that did would commit nothing.) -/
def coreStep (cmd : Word) (s : State) : Host.Outcome State Fault Refusal :=
  match runCommand cmd s with
  | .next t => .next t.complete
  | .fault f => .fault f
  | .refused r => .refused r

end Sys2Proof.Machine
end

