-- ==== Sys2Proof/Machine/HostBus.lean ====
section
/-! DEFINITION. One bus cycle of the host: its accesses to the window, POLL, idling, and reset (20_memory.md R40 to R49; 70_reset_and_hazards.md R190, R191, R197, R199). -/

namespace Sys2Proof.Machine

/-- The reads the host may make while BUSY = 1: STATUS and CMD (R197). -/
abbrev busyReadable (off : BitVec 10) : Prop := off = cmdOffset ∨ off = statusOffset

/-- `MemRead(off, bytes)` (R40). A width other than 32 bits, a misaligned offset and an access the busy hazard forbids stop (R44, R45, R197), looked at in this order (DESIGN CHOICE, notes/assumptions/5.md). A ⊥ byte in the word is recorded as a model fault (R49), and the bus gives the pattern there; a read changes no register (R46). -/
def hostRead (off : BitVec 10) (bytes : Nat) (s : State) : Host.Outcome State Fault Refusal :=
  if bytes ≠ 4 then .fault .badWidth
  else if off.toNat % 4 ≠ 0 then .fault .misaligned
  else if s.pending.isSome ∧ ¬ busyReadable off then .fault .busyAccess
  else .next ((s.recordUnless (wordHeld s off.toNat) .hostReadBottom).respond (.data (readWord s off.toNat)))

/-- `MemWrite(off, bytes, v)` (R40). A write of CMD issues the command; the other registers take the bytes they may (R42, R47, R48); while BUSY = 1 no write is allowed (R197). Width, alignment and the hazard are looked at in this order (DESIGN CHOICE, notes/assumptions/5.md). -/
def hostWrite (off : BitVec 10) (bytes : Nat) (v : Word) (s : State) : Host.Outcome State Fault Refusal :=
  if bytes ≠ 4 then .fault .badWidth
  else if off.toNat % 4 ≠ 0 then .fault .misaligned
  else if s.pending.isSome then .fault .busyAccess
  else if off = cmdOffset then .next ((s.issue v).respond .written)
  else .next ((writeWord s off.toNat v).respond .written)

/-- One access (R40). -/
def hostAccess (a : Access) (s : State) : Host.Outcome State Fault Refusal :=
  match a with
  | .read off bytes => hostRead off bytes s
  | .write off bytes v => hostWrite off bytes v s

/-- One turn of the POLL loop: a STATUS read (allowed at any time, R197); while bit 0 is 1 the loop goes on in the next bus cycle (R73). DESIGN CHOICE: the loop is one entry of the queue (notes/assumptions/6.md). -/
def hostPoll (s : State) : Host.Outcome State Fault Refusal :=
  .next ((s.setQueue (if s.status.busy then .poll :: s.queue else s.queue)).respond (.data (statusWord s.status)))

/-- What one host action does, the action already taken off the queue. An access at the same time as reset is the fault accessDuringReset whatever its width and offset (DESIGN CHOICE, notes/assumptions/5.md). -/
def hostAction (a : HostAction) (s : State) : Host.Outcome State Fault Refusal :=
  match a with
  | .access acc => hostAccess acc s
  | .poll => hostPoll s
  | .idle => .next (s.respond .quiet)
  | .reset => .next s.applyReset
  | .resetDuring _ => .fault .accessDuringReset

/-- Reset is applied now (R190): "Reset during a command aborts it: reset wins" (R176), so it comes before the core's step too. -/
def resetNow : List HostAction → Bool
  | [] => false
  | .access _ :: _ => false
  | .poll :: _ => false
  | .idle :: _ => false
  | .reset :: _ => true
  | .resetDuring _ :: _ => true

/-- One bus cycle: the host's next action, or none. A core with nothing to do holds all its state (R184, R192). -/
def hostCycle (s : State) : Host.Outcome State Fault Refusal :=
  match s.queue with
  | [] => .next (s.respond .quiet)
  | a :: rest => hostAction a (s.setQueue rest)

end Sys2Proof.Machine
end

