-- ==== Sys2Proof/Machine/Step.lean ====
section
/-! DEFINITION. One step of the transition system of 70_reset_and_hazards.md R199: the core's step when the pending command's latency has run out, a host bus cycle otherwise. -/

namespace Sys2Proof.Machine

/-- One step. While a command is pending, each host bus cycle takes one off its latency; when none is left the core's step comes before the host's next bus cycle (R196: LAT counts the bus cycles for which BUSY reads 1), unless reset is applied, which aborts the command (R191). -/
def step (s : State) : Host.Outcome State Fault Refusal :=
  match s.pending, s.wait with
  | some cmd, 0 => if resetNow s.queue then hostCycle s else coreStep cmd s
  | some _, n + 1 => hostCycle (s.setWait n)
  | none, _ => hostCycle s

/-- The state right after the host's write of this command word to CMD, with no bus cycle left to wait and no reset at this moment: the very next step is the core's step for it. There is no program counter and no fetch (R22); a program comes to run by the host's CMD writes (notes/assumptions/3.md). -/
def State.withFetchWord (s : State) (nbits w : Nat) : State :=
  (s.holdCommand (tableWord nbits w) 0).setQueue (if resetNow s.queue then .idle :: s.queue else s.queue)

end Sys2Proof.Machine
end

