-- ==== Sys2Proof/Machine/Assembler.lean ====
section
/-! DEFINITION. The assembler's command lines and the host's pseudo-instructions, as data and their expansion into bus cycles (30_encoding.md R67, R71, R73). They are host macros: the core sees only the accesses. -/

namespace Sys2Proof.Machine

/-- A command line: a mnemonic and its operands, a length left out standing as `none` (R71). -/
inductive AsmCommand where
  | gfmul
  | sbox
  | subbytes (slen : Option Nat)
  | shiftrows (slen : Option Nat)
  | mixcolumns (slen : Option Nat)
  | addroundkey (slen klen : Option Nat)
  | expandkey (klen : Nat)
  | loadrk (r : Nat)
  deriving DecidableEq, Repr

/-- The command a line stands for: a length left out is 16; EXPANDKEY's is never left out (R71). -/
def AsmCommand.instr : AsmCommand → Instr
  | .gfmul => .gfmul
  | .sbox => .sbox
  | .subbytes slen => .subbytes (slen.getD 16)
  | .shiftrows slen => .shiftrows (slen.getD 16)
  | .mixcolumns slen => .mixcolumns (slen.getD 16)
  | .addroundkey slen klen => .addroundkey (slen.getD 16) (klen.getD 16)
  | .expandkey klen => .expandkey klen
  | .loadrk r => .loadrk r

/-- The word the assembler emits, every unused field 0 (R67, R71). DESIGN CHOICE (notes/assumptions/16.md): an operand outside its field, which R71 excludes, is taken mod 2 to the field's width. -/
def assemble (c : AsmCommand) : Word := encode c.instr

/-- One line of a host program (R71, R73). -/
inductive HostLine where
  | wr (off : BitVec 10) (v : Word)
  | rd (off : BitVec 10)
  | command (c : AsmCommand)
  | issue (c : AsmCommand)
  | cmdw (v : Word)
  | poll
  | check
  | ldst (b : Block)
  | ldrk (b : Block)
  | ldck (bs : List Byte)
  | ldb (a b : Byte)
  | rdst
  | rdrk
  | rdw (i : Nat)
  | rdby
  | initround
  | round (r : Nat)
  | finalround (r : Nat)
  deriving DecidableEq, Repr

/-- `WR off, v` is `MemWrite(off, 4, v)` (R71). -/
def wrAction (off : Nat) (v : Word) : HostAction := .access (.write (BitVec.ofNat 10 off) 4 v)

/-- `RD off` is `MemRead(off, 4)` (R71). -/
def rdAction (off : Nat) : HostAction := .access (.read (BitVec.ofNat 10 off) 4)

/-- Bytes packed four to a word, written to consecutive offsets (R42, R73). DESIGN CHOICE (notes/assumptions/16.md): R73 gives LDCK 16, 24 or 32 bytes; any other list is written by the same formula, one word for each whole four bytes, also past the end of CK, and a rest of fewer than four bytes is not written. -/
def loadActions : Nat → List Byte → List HostAction
  | off, b0 :: b1 :: b2 :: b3 :: rest => wrAction off (wordOf b0 b1 b2 b3) :: loadActions (off + 4) rest
  | _, _ => []

/-- The four words of a 16-byte register, read in order (R73). -/
def readActions (off : Nat) : List HostAction := [rdAction off, rdAction (off + 4), rdAction (off + 8), rdAction (off + 12)]

/-- A command line: `WR 0x044, enc(M ops); POLL` (R73). -/
def commandActions (c : AsmCommand) : List HostAction := [wrAction 0x044 (assemble c), .poll]

/-- The expansion of a line into bus cycles (R71, R73). DESIGN CHOICE (notes/assumptions/16.md): R73 gives no meaning to a macro operand outside its range; such a line expands by the same formula, an offset taken mod 1024 (RDW 236 reads ST) and an operand of a command mod 2 to the width of its field. -/
def HostLine.expand : HostLine → List HostAction
  | .wr off v => [.access (.write off 4 v)]
  | .rd off => [.access (.read off 4)]
  | .command c => commandActions c
  | .issue c => [wrAction 0x044 (assemble c)]
  | .cmdw v => [wrAction 0x044 v]
  | .poll => [.poll]
  | .check => [rdAction 0x048]
  | .ldst b => loadActions 0x000 b.toList
  | .ldrk b => loadActions 0x010 b.toList
  | .ldck bs => loadActions 0x020 bs
  | .ldb a b => [wrAction 0x040 (wordOf a b 0 0)]
  | .rdst => readActions 0x000
  | .rdrk => readActions 0x010
  | .rdw i => [rdAction (0x050 + 4 * i)]
  | .rdby => [rdAction 0x040]
  | .initround => commandActions (.loadrk 0) ++ commandActions (.addroundkey none none)
  | .round r =>
    commandActions (.subbytes none) ++ commandActions (.shiftrows none) ++ commandActions (.mixcolumns none)
      ++ commandActions (.loadrk r) ++ commandActions (.addroundkey none none)
  | .finalround r =>
    commandActions (.subbytes none) ++ commandActions (.shiftrows none)
      ++ commandActions (.loadrk r) ++ commandActions (.addroundkey none none)

/-- What CHECK requires of the STATUS word it reads: `s[10:8] = 0` (R73). -/
def checkPasses (v : Word) : Bool := v.extractLsb' 8 3 == 0

/-- What RDBY takes from the BYTEOPS word it reads: BY = `v[23:16]` (R73). -/
def byField (v : Word) : Byte := byteOf v 2

/-- The bus cycles of a host program, line after line. -/
def expandProgram (lines : List HostLine) : List HostAction := lines.flatMap HostLine.expand

end Sys2Proof.Machine
end

