-- ==== Sys2Proof/Machine/System.lean ====
section
/-! DEFINITION. Several instances of the core in one system: N_INST is the length of the list, BASE the base of each instance (00_scope.md R10; 20_memory.md R50, R58; 60_exceptions.md R182, R185). -/

namespace Sys2Proof.Machine

/-- One instance: its registers, and where its 1 KiB window sits in the host's address map (R50). -/
structure Instance where
  base : Nat
  core : State
  deriving DecidableEq, Repr

/-- The instances of a system; nothing is shared between them (R58). -/
abbrev System := List Instance

/-- An access at a host address (R50). -/
inductive SystemAccess where
  | read (addr bytes : Nat)
  | write (addr bytes : Nat) (v : Word)
  deriving DecidableEq, Repr

/-- The host address of an access. -/
def SystemAccess.addr : SystemAccess → Nat
  | .read addr _ => addr
  | .write addr _ _ => addr

/-- The same access at a window offset. -/
def SystemAccess.toAccess (off : BitVec 10) : SystemAccess → Access
  | .read _ bytes => .read off bytes
  | .write _ bytes v => .write off bytes v

/-- Each BASE is 1 KiB-aligned (R50), and no two windows are one window (R58). -/
def System.wf (sys : System) : Bool :=
  sys.all (fun m => m.base % 1024 == 0) && decide (sys.map (·.base)).Nodup

/-- "An access at host address `BASE + off` is an access at window offset `off`" (R50). -/
def Instance.offset? (m : Instance) (addr : Nat) : Option (BitVec 10) :=
  if m.base ≤ addr ∧ addr < m.base + 1024 then some (BitVec.ofNat 10 (addr - m.base)) else none

/-- An access reaches an instance if its address lies in the instance's window; the instance takes it after what its host has queued already (R52). -/
def Instance.request (a : SystemAccess) (m : Instance) : Instance :=
  match m.offset? a.addr with
  | some off => { m with core := { m.core with queue := m.core.queue ++ [.access (a.toAccess off)] } }
  | none => m

/-- The host makes an access somewhere in the system. -/
def System.request (a : SystemAccess) (sys : System) : System := sys.map (Instance.request a)

/-- Instance number `k` takes one step, the others none (R58: no order between instances is promised, so any `k` may be next). -/
def System.stepAt (k : Nat) (sys : System) : Host.Outcome System Fault Refusal :=
  match sys[k]? with
  | none => .next sys
  | some m =>
    match step m.core with
    | .next t => .next (sys.set k { m with core := t })
    | .fault f => .fault f
    | .refused r => .refused r

end Sys2Proof.Machine
end

