-- ==== Sys2Proof/Safety.lean ====
section
/-! DEFINITION. What counts as a good state and a safe host, in the terms the statements use. -/

namespace Sys2Proof.Safety

open Sys2Proof.Machine

/-- The only legal (KSV, KS_NK, KS_NR) triples are (0,0,0), (1,4,10), (1,6,12) and (1,8,14) (R29). -/
abbrev legalTriple (t : Status) : Prop :=
  (t.ksv = false ∧ t.ksNk = 0 ∧ t.ksNr = 0) ∨ (t.ksv = true ∧ t.ksNk = 4 ∧ t.ksNr = 10) ∨
    (t.ksv = true ∧ t.ksNk = 6 ∧ t.ksNr = 12) ∨ (t.ksv = true ∧ t.ksNk = 8 ∧ t.ksNr = 14)

/-- STATUS and the in-flight command fit each other: BUSY is 1 exactly while a command is pending (R29, R199), CMD reads the pending word back (R28, R39, R197), an idle core waits for nothing, ERR is no reserved code (R170), and the schedule fields are a legal triple (R29). -/
abbrev statusInv (s : State) : Prop :=
  s.status.busy = s.pending.isSome ∧ (s.pending = none ∨ s.pending = some s.CMD) ∧ (s.pending = none → s.wait = 0) ∧
    s.status.err.toNat ≤ 4 ∧ legalTriple s.status

/-- The byte is ⊥. -/
abbrev isBottom (b : RegByte) : Prop := b.held = false

/-- Every data byte of the core is ⊥. -/
abbrev allBottom (s : State) : Prop :=
  (∀ i : Fin 16, isBottom s.ST[i]) ∧ (∀ i : Fin 16, isBottom s.RK[i]) ∧ (∀ i : Fin 32, isBottom s.CK[i]) ∧
    isBottom s.BA ∧ isBottom s.BB ∧ isBottom s.BY ∧ (∀ (i : Fin 60) (j : Fin 4), isBottom s.W[i][j])

/-- W is what STATUS says it is: with KSV = 1 the complete key schedule of some cipher key of 4·KS_NK bytes and ⊥ above it, with KSV = 0 all ⊥ (R27, R29, R38, R146). Nothing is said of the patterns in ⊥ bytes. -/
def scheduleInv (s : State) : Prop :=
  (s.status.ksv = true → ∃ key : List Byte, key.length = 4 * s.status.ksNk.toNat ∧
    (∀ i : Fin 60, i.val < 4 * (s.status.ksNk.toNat + 7) →
      s.W[i] = known ((expandKey s.status.ksNk.toNat key).getD i.val zeroWord)) ∧
    (∀ (i : Fin 60) (j : Fin 4), 4 * (s.status.ksNk.toNat + 7) ≤ i.val → isBottom s.W[i][j])) ∧
  (s.status.ksv = false → ∀ (i : Fin 60) (j : Fin 4), isBottom s.W[i][j])

/-- The operand bytes that a command's success path reads (R33, R35). -/
def operandBytes (i : Instr) (s : State) : List RegByte :=
  match i with
  | .gfmul => [s.BA, s.BB]
  | .sbox => [s.BA]
  | .subbytes _ => s.ST.toList
  | .shiftrows _ => s.ST.toList
  | .mixcolumns _ => s.ST.toList
  | .addroundkey _ _ => s.ST.toList ++ s.RK.toList
  | .expandkey klen => keyBytes s klen
  | .loadrk rnd => (roundBytes s rnd).toList

/-- Every byte that the command's success path reads holds a value (R33, R35). -/
def operandsHeld (i : Instr) (s : State) : Bool := allHeld (operandBytes i s)

/-- Both bytes are one value, or both are ⊥, whatever the two patterns are. -/
abbrev agreesByte (a b : RegByte) : Prop := a = b ∨ (isBottom a ∧ isBottom b)

/-- `t` is `s` with other patterns in its ⊥ bytes, all else equal. -/
abbrev agrees (s t : State) : Prop :=
  (∀ i : Fin 16, agreesByte s.ST[i] t.ST[i]) ∧ (∀ i : Fin 16, agreesByte s.RK[i] t.RK[i]) ∧
    (∀ i : Fin 32, agreesByte s.CK[i] t.CK[i]) ∧ agreesByte s.BA t.BA ∧ agreesByte s.BB t.BB ∧ agreesByte s.BY t.BY ∧
    (∀ (i : Fin 60) (j : Fin 4), agreesByte s.W[i][j] t.W[i][j]) ∧ s.CMD = t.CMD ∧ s.status = t.status ∧
    s.pending = t.pending ∧ s.wait = t.wait ∧ s.draws = t.draws ∧ s.queue = t.queue ∧ s.resp = t.resp ∧
    s.recorded = t.recorded

/-- An access the host may make while it does not know that BUSY = 0: a 32-bit read of STATUS or CMD (R197). -/
def readsStatusOrCmd : Access → Bool
  | .read off bytes => decide (bytes = 4 ∧ (off = statusOffset ∨ off = cmdOffset))
  | .write _ _ _ => false

/-- An access that issues a command: a write of CMD. -/
def writesCmd : Access → Bool
  | .read _ _ => false
  | .write off _ _ => decide (off = cmdOffset)

/-- The host respects the busy hazard: from a CMD write until a POLL has returned, only STATUS and CMD reads (R197). The flag says that a CMD write has not been polled yet. -/
def disciplined : Bool → List HostAction → Bool
  | _, [] => true
  | true, .access a :: q => readsStatusOrCmd a && disciplined true q
  | false, .access a :: q => disciplined (writesCmd a) q
  | _, .poll :: q => disciplined false q
  | b, .idle :: q => disciplined b q
  | _, .reset :: q => disciplined false q
  | _, .resetDuring _ :: _ => true

end Sys2Proof.Safety
end

