-- ==== Sys2Proof/Certificates/Slice0/Obligations.lean ====
section
/-! DEFINITION. The statements for the provers: the rules of spec/ that say what a command or the machine does. -/

open Sys2Proof Sys2Proof.Machine Sys2Proof.Safety

/- ---- Encoding ---- -/

/-- R67: the canonical words the assembler emits, and each decodes to its command. -/
def Obligations.CanonicalWordsDecode : Prop :=
  (assemble .gfmul = 0x00000001#32 ∧ decode 0x00000001#32 = .command .gfmul) ∧
  (assemble .sbox = 0x00000002#32 ∧ decode 0x00000002#32 = .command .sbox) ∧
  (assemble (.subbytes none) = 0x00001003#32 ∧ decode 0x00001003#32 = .command (.subbytes 16)) ∧
  (assemble (.shiftrows none) = 0x00001004#32 ∧ decode 0x00001004#32 = .command (.shiftrows 16)) ∧
  (assemble (.mixcolumns none) = 0x00001005#32 ∧ decode 0x00001005#32 = .command (.mixcolumns 16)) ∧
  (assemble (.addroundkey none none) = 0x00101006#32 ∧ decode 0x00101006#32 = .command (.addroundkey 16 16)) ∧
  (assemble (.expandkey 16) = 0x00100007#32 ∧ decode 0x00100007#32 = .command (.expandkey 16)) ∧
  (assemble (.expandkey 24) = 0x00180007#32 ∧ decode 0x00180007#32 = .command (.expandkey 24)) ∧
  (assemble (.expandkey 32) = 0x00200007#32 ∧ decode 0x00200007#32 = .command (.expandkey 32)) ∧
  (∀ r : Fin 16, assemble (.loadrk r) = 0x00000008#32 ||| (BitVec.ofNat 32 r.val <<< 4) ∧
    decode (0x00000008#32 ||| (BitVec.ofNat 32 r.val <<< 4)) = .command (.loadrk r))

/-- Decoding the encoding of any well-formed command gives it back, every operand at every value its field admits (R60, R65, R70). -/
def Obligations.DecodeOfEncode : Prop :=
  ∀ i : Instr, i.wf = true → decode (encode i) = .command i

/-- Every command the decoder answers is well formed (R60, R70). -/
def Obligations.DecodedCommandsAreWellFormed : Prop :=
  ∀ (cmd : Word) (i : Instr), decode cmd = .command i → i.wf = true

/-- R66 and R70: over OP and the reserved bits only, each legal opcode matches its pattern under the mask 0xFFC0C00F, the command's operands are the fields of the word, and every other word is illegal. A field the opcode does not use does not matter. -/
def Obligations.OpcodePatternsAndFields : Prop :=
  ∀ cmd : Word,
    (cmd &&& 0xFFC0C00F#32 = 1 → decode cmd = .command .gfmul) ∧
    (cmd &&& 0xFFC0C00F#32 = 2 → decode cmd = .command .sbox) ∧
    (cmd &&& 0xFFC0C00F#32 = 3 → decode cmd = .command (.subbytes ((cmd >>> 8) &&& 0x3F#32).toNat)) ∧
    (cmd &&& 0xFFC0C00F#32 = 4 → decode cmd = .command (.shiftrows ((cmd >>> 8) &&& 0x3F#32).toNat)) ∧
    (cmd &&& 0xFFC0C00F#32 = 5 → decode cmd = .command (.mixcolumns ((cmd >>> 8) &&& 0x3F#32).toNat)) ∧
    (cmd &&& 0xFFC0C00F#32 = 6 → decode cmd =
      .command (.addroundkey ((cmd >>> 8) &&& 0x3F#32).toNat ((cmd >>> 16) &&& 0x3F#32).toNat)) ∧
    (cmd &&& 0xFFC0C00F#32 = 7 → decode cmd = .command (.expandkey ((cmd >>> 16) &&& 0x3F#32).toNat)) ∧
    (cmd &&& 0xFFC0C00F#32 = 8 → decode cmd = .command (.loadrk ((cmd >>> 4) &&& 0xF#32).toNat)) ∧
    ((cmd &&& 0xFFC0C00F#32 = 0 ∨ 9 ≤ (cmd &&& 0xFFC0C00F#32).toNat) → ∃ why, decode cmd = .illegal why)

/-- R68: the illegal words are exactly those with OP 0x0 or 0x9..0xF or a reserved bit set. -/
def Obligations.IllegalWordsExactly : Prop :=
  ∀ cmd : Word,
    (∃ why, decode cmd = .illegal why) ↔
      ((cmd &&& 0xF#32).toNat = 0 ∨ 9 ≤ (cmd &&& 0xF#32).toNat ∨ cmd &&& 0xFFC0C000#32 ≠ 0)

/- ---- The functions computed ---- -/

/-- R83: `gf_multiply(a, b)` is the product of the polynomials over GF(2) whose coefficients are the bits of `a` and of `b`, modulo `x^8 + x^4 + x^3 + x + 1`. -/
def Obligations.MultiplyIsPolynomialProduct : Prop :=
  ∀ a b : Byte,
    (∑ i : Fin 8, (if (gfMultiply a b).getLsbD i then (Polynomial.X : Polynomial (ZMod 2)) ^ i.val else 0)) =
      ((∑ i : Fin 8, (if a.getLsbD i then (Polynomial.X : Polynomial (ZMod 2)) ^ i.val else 0)) *
        (∑ i : Fin 8, (if b.getLsbD i then (Polynomial.X : Polynomial (ZMod 2)) ^ i.val else 0))) %ₘ
      (Polynomial.X ^ 8 + Polynomial.X ^ 4 + Polynomial.X ^ 3 + Polynomial.X + 1)

/-- R82: multiplicative identity, zero absorption, commutativity. -/
def Obligations.MultiplyLaws : Prop :=
  (∀ b : Byte, gfMultiply b 1 = b) ∧ (∀ b : Byte, gfMultiply b 0 = 0) ∧
    (∀ a b : Byte, gfMultiply a b = gfMultiply b a)

/-- R84: doubling is one step of the reduction, tripling is doubling xor the value; MixColumns uses only the multipliers 1, 2 and 3, and the round constants only multiplication by 2. -/
def Obligations.DoublingAndTripling : Prop :=
  (∀ v : Byte,
    gfMultiply v 2 = ((v <<< 1) ^^^ (if v &&& 0x80 ≠ 0 then 0x1B else 0x00)) ∧
    gfMultiply v 3 = gfMultiply v 2 ^^^ v) ∧
  (∀ i k : Fin 4, mixMatrix[i][k] = 1 ∨ mixMatrix[i][k] = 2 ∨ mixMatrix[i][k] = 3) ∧
  (∀ k : Fin 9, (rcon (k.val + 2))[0] = gfMultiply (rcon (k.val + 1))[0] 2)

/-- R95: the S-box is a permutation of the bytes and maps 0x00 to 0x63. -/
def Obligations.SboxIsPermutation : Prop :=
  Function.Bijective subByte ∧ subByte 0x00 = 0x63

/-- R91: the table is the affine map of the multiplicative inverse, with 0x00 its own inverse. Each non-zero byte has an inverse, so the clause for it says something about every entry. -/
def Obligations.SboxIsAffineInverse : Prop :=
  (∀ b : Byte, b ≠ 0 → ∃ c : Byte, gfMultiply b c = 1) ∧
  (∀ b c : Byte, (gfMultiply b c = 1 ∨ (b = 0 ∧ c = 0)) → ∀ i : Fin 8,
    (subByte b).getLsbD i =
      (c.getLsbD i ^^ c.getLsbD ((i.val + 4) % 8) ^^ c.getLsbD ((i.val + 5) % 8) ^^ c.getLsbD ((i.val + 6) % 8) ^^
        c.getLsbD ((i.val + 7) % 8) ^^ (0x63#8).getLsbD i))

/-- R110: row `r` is rotated left by `r`: the element at column `c + r` moves to column `c`. With the source's example of R112 (`A`..`P`) and the period of R113. -/
def Obligations.ShiftRowsRotatesRows : Prop :=
  (∀ (s : Block) (r c : Fin 4),
    (shiftRows s)[r.val + 4 * c.val]'(by omega) = s[r.val + 4 * ((c.val + r.val) % 4)]'(by omega)) ∧
  shiftRows (tabulate fun i => BitVec.ofNat 8 (0x41 + i.val)) =
    #v[0x41, 0x46, 0x4b, 0x50, 0x45, 0x4a, 0x4f, 0x44, 0x49, 0x4e, 0x43, 0x48, 0x4d, 0x42, 0x47, 0x4c] ∧
  (∀ s : Block, shiftRows (shiftRows (shiftRows (shiftRows s))) = s)

/-- R120: each column is replaced by the matrix product, written out row by row; columns do not mix. -/
def Obligations.MixColumnsIsMatrixProduct : Prop :=
  ∀ (s : Block) (c : Fin 4),
    (mixColumns s)[4 * c.val]'(by omega) =
      gfMultiply 2 (s[4 * c.val]'(by omega)) ^^^ gfMultiply 3 (s[4 * c.val + 1]'(by omega)) ^^^
        s[4 * c.val + 2]'(by omega) ^^^ s[4 * c.val + 3]'(by omega) ∧
    (mixColumns s)[4 * c.val + 1]'(by omega) =
      s[4 * c.val]'(by omega) ^^^ gfMultiply 2 (s[4 * c.val + 1]'(by omega)) ^^^
        gfMultiply 3 (s[4 * c.val + 2]'(by omega)) ^^^ s[4 * c.val + 3]'(by omega) ∧
    (mixColumns s)[4 * c.val + 2]'(by omega) =
      s[4 * c.val]'(by omega) ^^^ s[4 * c.val + 1]'(by omega) ^^^
        gfMultiply 2 (s[4 * c.val + 2]'(by omega)) ^^^ gfMultiply 3 (s[4 * c.val + 3]'(by omega)) ∧
    (mixColumns s)[4 * c.val + 3]'(by omega) =
      gfMultiply 3 (s[4 * c.val]'(by omega)) ^^^ s[4 * c.val + 1]'(by omega) ^^^
        s[4 * c.val + 2]'(by omega) ^^^ gfMultiply 2 (s[4 * c.val + 3]'(by omega))

/-- R122: MixColumns is linear over XOR, because the multiplier distributes over XOR. -/
def Obligations.MixColumnsIsLinear : Prop :=
  (∀ a b c : Byte, gfMultiply a (b ^^^ c) = gfMultiply a b ^^^ gfMultiply a c) ∧
  (∀ s t : Block, mixColumns (addRoundKey s t) = addRoundKey (mixColumns s) (mixColumns t))

/-- R132: AddRoundKey is self-inverse. -/
def Obligations.AddRoundKeyIsInvolution : Prop :=
  ∀ s k : Block, addRoundKey (addRoundKey s k) k = s

/-- R142: the ten words of the Rcon ROM have the table's bytes and obey the recurrence of the multiplier; the expansion uses no index but 1 to 10, 8 or 7. -/
def Obligations.RconFollowsDoubling : Prop :=
  ((List.range 10).map fun k => rcon (k + 1)) =
    [#v[0x01, 0, 0, 0], #v[0x02, 0, 0, 0], #v[0x04, 0, 0, 0], #v[0x08, 0, 0, 0], #v[0x10, 0, 0, 0], #v[0x20, 0, 0, 0],
     #v[0x40, 0, 0, 0], #v[0x80, 0, 0, 0], #v[0x1B, 0, 0, 0], #v[0x36, 0, 0, 0]] ∧
  (∀ k : Fin 9, rcon (k.val + 2) = #v[gfMultiply (rcon (k.val + 1))[0] 2, 0, 0, 0]) ∧
  (∀ nk i : Nat, (nk = 4 ∨ nk = 6 ∨ nk = 8) → nk ≤ i → i < 4 * (nk + 7) →
    1 ≤ i / nk ∧ i / nk ≤ (if nk = 4 then 10 else if nk = 6 then 8 else 7))

/-- R144: for each key length the expansion has `4·(Nr+1)` words, starts with the key's own words, and every later word is `W[i-Nk] xor temp` with `temp` by the rule of step 2. The right sides are written out byte by byte, from the S-box and the powers of 2 in GF(2^8). -/
def Obligations.ExpansionRecurrence : Prop :=
  ∀ (nk : Nat) (key : List Byte), (nk = 4 ∨ nk = 6 ∨ nk = 8) → key.length = 4 * nk →
    (expandKey nk key).length = 4 * (nk + 7) ∧
    (∀ (i : Nat) (j : Fin 4), i < nk → ((expandKey nk key).getD i zeroWord)[j] = key.getD (4 * i + j.val) 0) ∧
    (∀ (i : Nat) (j : Fin 4), nk ≤ i → i < 4 * (nk + 7) →
      ((expandKey nk key).getD i zeroWord)[j] =
        ((expandKey nk key).getD (i - nk) zeroWord)[j] ^^^
          (if i % nk = 0 then
            subByte (((expandKey nk key).getD (i - 1) zeroWord)[(j.val + 1) % 4]'(by omega)) ^^^
              (if j.val = 0 then (rcon (i / nk))[0] else 0)
          else if nk = 8 ∧ i % nk = 4 then subByte ((expandKey nk key).getD (i - 1) zeroWord)[j]
          else ((expandKey nk key).getD (i - 1) zeroWord)[j]))

/- ---- The commands: results, completion, frame ---- -/

/-- R81: GFMUL completes whenever BA and BB hold values: BY takes the product, ERR 0, nothing else changes; a ⊥ operand is recorded as a model fault. That the command goes on there is the model's choice (DESIGN CHOICE, notes/assumptions/1.md), and so is the form of the record (notes/assumptions/17.md). Its word is any with OP 1 and no reserved bit. With the corner cases and the worked example of the rule. -/
def Obligations.GfmulResult : Prop :=
  (∀ (s : State) (a b : Byte), s.BA = .value a → s.BB = .value b →
    exec .gfmul s = .next { s with BY := .value (gfMultiply a b), status := { s.status with err := 0 } }) ∧
  (∀ s : State, (isBottom s.BA ∨ isBottom s.BB) →
    ∃ t, exec .gfmul s = .next t ∧ t.recorded = s.recorded ++ [.commandUsedBottom]) ∧
  (∀ cmd : Word, cmd &&& 0xFFC0C00F#32 = 1 → decode cmd = .command .gfmul) ∧ assemble .gfmul = 0x00000001#32 ∧
  (∀ v : Byte, gfMultiply v 0 = 0 ∧ gfMultiply 0 v = 0 ∧ gfMultiply v 1 = v) ∧
  (∀ a b : Byte, gfMultiply a b = gfMultiply b a) ∧ gfMultiply 0xFF 0xFF = 0x13 ∧ gfMultiply 0x57 0x83 = 0xC1

/-- R92: SBOX completes whenever BA holds a value: BY takes the S-box entry, ERR 0, nothing else changes; a ⊥ BA is recorded as a model fault. That the command goes on there is the model's choice (DESIGN CHOICE, notes/assumptions/1.md), and so is the form of the record (notes/assumptions/17.md). With the corner cases and the worked example of the rule. -/
def Obligations.SboxResult : Prop :=
  (∀ (s : State) (a : Byte), s.BA = .value a →
    exec .sbox s = .next { s with BY := .value (subByte a), status := { s.status with err := 0 } }) ∧
  (∀ s : State, isBottom s.BA → ∃ t, exec .sbox s = .next t ∧ t.recorded = s.recorded ++ [.commandUsedBottom]) ∧
  (∀ cmd : Word, cmd &&& 0xFFC0C00F#32 = 2 → decode cmd = .command .sbox) ∧ assemble .sbox = 0x00000002#32 ∧
  (∀ b : Byte, subByte b ≠ b) ∧ subByte 0x00 = 0x63 ∧ subByte 0xFF = 0x16 ∧ subByte 0x53 = 0xED

/-- R94, R93: SUBBYTES with SLEN = 16 completes whenever all of ST holds values: each byte of ST takes the S-box entry of its old value, ERR 0, nothing else changes. Another SLEN writes ERR 1 and nothing else; a ⊥ byte of ST is recorded as a model fault. That the command goes on there is the model's choice (DESIGN CHOICE, notes/assumptions/1.md), and so is the form of the record (notes/assumptions/17.md). With the corner cases and the worked example of the rule. -/
def Obligations.SubbytesResult : Prop :=
  (∀ (s : State) (b : Block), s.ST = known b →
    exec (.subbytes 16) s =
      .next { s with ST := tabulate fun i => .value (subByte b[i]), status := { s.status with err := 0 } }) ∧
  (∀ (s : State) (slen : Nat), slen ≠ 16 →
    exec (.subbytes slen) s = .next { s with status := { s.status with err := 1 } }) ∧
  (∀ (s : State) (i : Fin 16), isBottom s.ST[i] →
    ∃ t, exec (.subbytes 16) s = .next t ∧ t.recorded = s.recorded ++ [.commandUsedBottom]) ∧
  (∀ cmd : Word, cmd &&& 0xFFC0C00F#32 = 3 → decode cmd = .command (.subbytes ((cmd >>> 8) &&& 0x3F#32).toNat)) ∧
  assemble (.subbytes none) = 0x00001003#32 ∧ subByte 0x00 = 0x63 ∧ subByte 0x63 = 0xFB ∧
  subBytes #v[0x00, 0x11, 0x22, 0x33, 0x44, 0x55, 0x66, 0x77, 0x88, 0x99, 0xaa, 0xbb, 0xcc, 0xdd, 0xee, 0xff] =
    #v[0x63, 0x82, 0x93, 0xc3, 0x1b, 0xfc, 0x33, 0xf5, 0xc4, 0xee, 0xac, 0xea, 0x4b, 0xc1, 0x28, 0x16]

/-- R111, R110: SHIFTROWS with SLEN = 16 completes whenever all of ST holds values: byte `j` of ST takes the OLD byte at R110's source index, ERR 0, nothing else changes. Another SLEN writes ERR 1 and nothing else; a ⊥ byte of ST is recorded as a model fault. That the command goes on there is the model's choice (DESIGN CHOICE, notes/assumptions/1.md), and so is the form of the record (notes/assumptions/17.md). With the corner cases and the worked example of the rule. -/
def Obligations.ShiftrowsResult : Prop :=
  (∀ (s : State) (b : Block), s.ST = known b →
    exec (.shiftrows 16) s =
      .next { s with
        ST := known #v[b[0], b[5], b[10], b[15], b[4], b[9], b[14], b[3],
                       b[8], b[13], b[2], b[7], b[12], b[1], b[6], b[11]]
        status := { s.status with err := 0 } }) ∧
  (∀ (s : State) (slen : Nat), slen ≠ 16 →
    exec (.shiftrows slen) s = .next { s with status := { s.status with err := 1 } }) ∧
  (∀ (s : State) (i : Fin 16), isBottom s.ST[i] →
    ∃ t, exec (.shiftrows 16) s = .next t ∧ t.recorded = s.recorded ++ [.commandUsedBottom]) ∧
  (∀ cmd : Word, cmd &&& 0xFFC0C00F#32 = 4 → decode cmd = .command (.shiftrows ((cmd >>> 8) &&& 0x3F#32).toNat)) ∧
  assemble (.shiftrows none) = 0x00001004#32 ∧
  (∀ row : KWord, shiftRows (tabulate fun i : Fin 16 => row[i.val % 4]'(by omega)) =
    tabulate fun i : Fin 16 => row[i.val % 4]'(by omega)) ∧
  (∀ b : Block, shiftRows (shiftRows (shiftRows (shiftRows b))) = b) ∧
  shiftRows #v[0x41, 0x42, 0x43, 0x44, 0x45, 0x46, 0x47, 0x48, 0x49, 0x4a, 0x4b, 0x4c, 0x4d, 0x4e, 0x4f, 0x50] =
    #v[0x41, 0x46, 0x4b, 0x50, 0x45, 0x4a, 0x4f, 0x44, 0x49, 0x4e, 0x43, 0x48, 0x4d, 0x42, 0x47, 0x4c]

/-- R121: MIXCOLUMNS with SLEN = 16 completes whenever all of ST holds values: ST takes mix_columns of its old value, ERR 0, nothing else changes. Another SLEN writes ERR 1 and nothing else; a ⊥ byte of ST is recorded as a model fault. That the command goes on there is the model's choice (DESIGN CHOICE, notes/assumptions/1.md), and so is the form of the record (notes/assumptions/17.md). With the corner cases and the worked example of the rule. -/
def Obligations.MixcolumnsResult : Prop :=
  (∀ (s : State) (b : Block), s.ST = known b →
    exec (.mixcolumns 16) s =
      .next { s with ST := known (mixColumns b), status := { s.status with err := 0 } }) ∧
  (∀ (s : State) (slen : Nat), slen ≠ 16 →
    exec (.mixcolumns slen) s = .next { s with status := { s.status with err := 1 } }) ∧
  (∀ (s : State) (i : Fin 16), isBottom s.ST[i] →
    ∃ t, exec (.mixcolumns 16) s = .next t ∧ t.recorded = s.recorded ++ [.commandUsedBottom]) ∧
  (∀ cmd : Word, cmd &&& 0xFFC0C00F#32 = 5 → decode cmd = .command (.mixcolumns ((cmd >>> 8) &&& 0x3F#32).toNat)) ∧
  assemble (.mixcolumns none) = 0x00001005#32 ∧
  (∀ v : KWord, mixColumns (tabulate fun i : Fin 16 => v[i.val / 4]'(by omega)) =
    tabulate fun i : Fin 16 => v[i.val / 4]'(by omega)) ∧
  mixColumns #v[0x80, 0x00, 0x00, 0x00, 0xdb, 0x13, 0x53, 0x45, 0x00, 0x00, 0x00, 0x00, 0x00, 0x00, 0x00, 0x00] =
    #v[0x1b, 0x80, 0x80, 0x9b, 0x8e, 0x4d, 0xa1, 0xbc, 0x00, 0x00, 0x00, 0x00, 0x00, 0x00, 0x00, 0x00]

/-- R131, R130: ADDROUNDKEY with SLEN = KLEN = 16 completes whenever all of ST and RK holds values: each byte of ST takes its XOR with RK's, ERR 0, nothing else changes. Another SLEN or KLEN writes ERR 1 and nothing else; a ⊥ byte of ST or RK is recorded as a model fault. That the command goes on there is the model's choice (DESIGN CHOICE, notes/assumptions/1.md), and so is the form of the record (notes/assumptions/17.md). With the corner cases and the worked example of the rule. -/
def Obligations.AddroundkeyResult : Prop :=
  (∀ (s : State) (b k : Block), s.ST = known b → s.RK = known k →
    exec (.addroundkey 16 16) s =
      .next { s with ST := tabulate fun i => .value (b[i] ^^^ k[i]), status := { s.status with err := 0 } }) ∧
  (∀ (s : State) (slen klen : Nat), (slen ≠ 16 ∨ klen ≠ 16) →
    exec (.addroundkey slen klen) s = .next { s with status := { s.status with err := 1 } }) ∧
  (∀ (s : State) (i : Fin 16), (isBottom s.ST[i] ∨ isBottom s.RK[i]) →
    ∃ t, exec (.addroundkey 16 16) s = .next t ∧ t.recorded = s.recorded ++ [.commandUsedBottom]) ∧
  (∀ cmd : Word, cmd &&& 0xFFC0C00F#32 = 6 → decode cmd =
    .command (.addroundkey ((cmd >>> 8) &&& 0x3F#32).toNat ((cmd >>> 16) &&& 0x3F#32).toNat)) ∧
  assemble (.addroundkey none none) = 0x00101006#32 ∧
  (∀ b : Block, addRoundKey b (tabulate fun _ => 0) = b ∧ addRoundKey b b = tabulate fun _ => 0) ∧
  (∀ b k : Block, addRoundKey (addRoundKey b k) k = b) ∧
  addRoundKey
    #v[0x32, 0x43, 0xf6, 0xa8, 0x88, 0x5a, 0x30, 0x8d, 0x31, 0x31, 0x98, 0xa2, 0xe0, 0x37, 0x07, 0x34]
    #v[0x2b, 0x7e, 0x15, 0x16, 0x28, 0xae, 0xd2, 0xa6, 0xab, 0xf7, 0x15, 0x88, 0x09, 0xcf, 0x4f, 0x3c] =
    #v[0x19, 0x3d, 0xe3, 0xbe, 0xa0, 0xf4, 0xe2, 0x2b, 0x9a, 0xc6, 0x8d, 0x2a, 0xe9, 0xf8, 0x48, 0x08]

/-- R146: EXPANDKEY with KLEN 16, 24 or 32 completes whenever `CK[0..KLEN-1]` holds values: W takes the expansion with ⊥ above it, KSV 1, KS_NK = KLEN/4, KS_NR = KLEN/4 + 6, ERR 0, nothing else of the core changes (the numbering of the free values, `draws`, is the model's own, notes/assumptions/2.md), whatever the rest of CK and the old W hold. Another KLEN writes ERR 2 and nothing else; a ⊥ byte of the key is recorded as a model fault. That the command goes on there is the model's choice (DESIGN CHOICE, notes/assumptions/1.md), and so is the form of the record (notes/assumptions/17.md). With the worked example of the rule; that later writes of CK do not change W is the writing step's: it changes no byte of the window outside the word written. -/
def Obligations.ExpandkeyResult : Prop :=
  (∀ (s : State) (klen : Nat) (key : List Byte), (klen = 16 ∨ klen = 24 ∨ klen = 32) →
    s.CK.toList.take klen = key.map .value →
    ∃ (w : Vector (Vector RegByte 4) 60) (n : Nat), exec (.expandkey klen) s =
      .next { s with
        W := w, draws := n
        status := { s.status with
          err := 0, ksv := true, ksNk := BitVec.ofNat 4 (klen / 4), ksNr := BitVec.ofNat 4 (klen / 4 + 6) } } ∧
      (∀ i : Fin 60, i.val < 4 * (klen / 4 + 7) → w[i] = known ((expandKey (klen / 4) key).getD i.val zeroWord)) ∧
      (∀ (i : Fin 60) (j : Fin 4), 4 * (klen / 4 + 7) ≤ i.val → isBottom w[i][j])) ∧
  (∀ (s : State) (klen : Nat), klen ≠ 16 → klen ≠ 24 → klen ≠ 32 →
    exec (.expandkey klen) s = .next { s with status := { s.status with err := 2 } }) ∧
  (∀ (s : State) (klen : Nat) (i : Fin 32), (klen = 16 ∨ klen = 24 ∨ klen = 32) → i.val < klen → isBottom s.CK[i] →
    ∃ t, exec (.expandkey klen) s = .next t ∧ t.recorded = s.recorded ++ [.commandUsedBottom]) ∧
  (∀ cmd : Word, cmd &&& 0xFFC0C00F#32 = 7 → decode cmd = .command (.expandkey ((cmd >>> 16) &&& 0x3F#32).toNat)) ∧
  (assemble (.expandkey 16) = 0x00100007#32 ∧ assemble (.expandkey 24) = 0x00180007#32 ∧
    assemble (.expandkey 32) = 0x00200007#32) ∧
  (∀ (s t : State) (v : Word) (off : BitVec 10) (q : List HostAction), s.pending = none → 0x020 ≤ off.toNat → off.toNat < 0x040 →
    s.queue = .access (.write off 4 v) :: q → step s = .next t → t.W = s.W) ∧
  (∀ i : Fin 4, (expandKey 4 (List.replicate 16 0)).getD (4 + i.val) zeroWord = #v[0x62, 0x63, 0x63, 0x63])

/-- R150, R145: LOADRK r completes whenever a schedule is there, `r ≤ KS_NR`, and the words `W[4r..4r+3]` hold values: RK takes them in order, ERR 0, nothing else changes. Without a schedule, or above KS_NR (so always for r = 15), it writes ERR 4 and nothing else. In every state that meets the schedule invariant the words are never ⊥: it completes, and RK then holds the round key of the key that was expanded, for r = 0 its first 16 bytes. -/
def Obligations.LoadrkResult : Prop :=
  (∀ (s : State) (r : Nat) (w : Vector KWord 4) (h : r ≤ 14),
    s.status.ksv = true → r ≤ s.status.ksNr.toNat →
    (∀ m : Fin 4, s.W[4 * r + m.val]'(by omega) = known w[m]) →
    exec (.loadrk r) s =
      .next { s with
        RK := tabulate fun k : Fin 16 => .value ((w[k.val / 4]'(by omega))[k.val % 4]'(by omega))
        status := { s.status with err := 0 } }) ∧
  (∀ (s : State) (r : Nat), (s.status.ksv = false ∨ s.status.ksNr.toNat < r) →
    exec (.loadrk r) s = .next { s with status := { s.status with err := 4 } }) ∧
  (∀ s : State, legalTriple s.status → exec (.loadrk 15) s = .next { s with status := { s.status with err := 4 } }) ∧
  (∀ cmd : Word, cmd &&& 0xFFC0C00F#32 = 8 → decode cmd = .command (.loadrk ((cmd >>> 4) &&& 0xF#32).toNat)) ∧
  (∀ r : Fin 16, assemble (.loadrk r) = 0x00000008#32 ||| (BitVec.ofNat 32 r.val <<< 4)) ∧
  (∀ (s : State) (r : Nat), legalTriple s.status → scheduleInv s → s.status.ksv = true → r ≤ s.status.ksNr.toNat →
    ∃ key : List Byte, key.length = 4 * s.status.ksNk.toNat ∧
      (∀ i : Fin 60, i.val < 4 * (s.status.ksNk.toNat + 7) →
        s.W[i] = known ((expandKey s.status.ksNk.toNat key).getD i.val zeroWord)) ∧
      exec (.loadrk r) s =
        .next { s with
          RK := tabulate fun k : Fin 16 =>
            .value (((expandKey s.status.ksNk.toNat key).getD (4 * r + k.val / 4) zeroWord)[k.val % 4]'(by omega))
          status := { s.status with err := 0 } } ∧
      (r = 0 → ∀ k : Fin 16,
        ((expandKey s.status.ksNk.toNat key).getD (4 * r + k.val / 4) zeroWord)[k.val % 4]'(by omega) = key.getD k.val 0))

/-- R151: `EXPANDKEY klen=16` of the all-zero key, then `LOADRK 1`, from every state whose first 16 cipher-key bytes are 0. -/
def Obligations.ZeroKeyRoundOne : Prop :=
  ∀ s : State, s.CK.toList.take 16 = List.replicate 16 (.value 0) →
    ∃ t u, exec (.expandkey 16) s = .next t ∧ exec (.loadrk 1) t = .next u ∧
      u.RK = known #v[0x62, 0x63, 0x63, 0x63, 0x62, 0x63, 0x63, 0x63, 0x62, 0x63, 0x63, 0x63, 0x62, 0x63, 0x63, 0x63]

/-- R172, at the core's step: a pending command whose check fails ends with its error code in STATUS.ERR, BUSY 0 and nothing pending, and no other register, memory word or status field changes, whatever its operands hold. The codes are those of R170 and R171. -/
def Obligations.FailingCommandsChangeOnlyErr : Prop :=
  ∀ (s : State) (cmd : Word) (e : BitVec 3),
    s.pending = some cmd → s.wait = 0 → resetNow s.queue = false →
    ((∃ why, decode cmd = .illegal why ∧ e = 3) ∨
      (∃ slen, slen ≠ 16 ∧ e = 1 ∧ (decode cmd = .command (.subbytes slen) ∨ decode cmd = .command (.shiftrows slen) ∨
        decode cmd = .command (.mixcolumns slen))) ∨
      (∃ slen klen, (slen ≠ 16 ∨ klen ≠ 16) ∧ e = 1 ∧ decode cmd = .command (.addroundkey slen klen)) ∨
      (∃ klen, klen ≠ 16 ∧ klen ≠ 24 ∧ klen ≠ 32 ∧ e = 2 ∧ decode cmd = .command (.expandkey klen)) ∨
      (∃ r, (s.status.ksv = false ∨ s.status.ksNr.toNat < r) ∧ e = 4 ∧ decode cmd = .command (.loadrk r))) →
    step s = .next { s with status := { s.status with err := e, busy := false }, pending := none, wait := 0 }

/-- Every command answers a next state, in every state. It records a model fault exactly when its checks pass and a byte its success path reads is ⊥ (R33), and its result is that of the patterns the operand bytes hold: U1's "The chip computes on some bit pattern". That a run goes on with that pattern is the model's choice (DESIGN CHOICE, notes/assumptions/1.md), and so is the form of the record (notes/assumptions/17.md). -/
def Obligations.CommandsAlwaysComplete : Prop :=
  ∀ (i : Instr) (s : State), ∃ t, exec i s = .next t ∧
    t.recorded = (if check i s.status = none ∧ operandsHeld i s = false then s.recorded ++ [.commandUsedBottom]
      else s.recorded) ∧
    (∀ e, check i s.status = some e → t.status.err = e.code) ∧
    (check i s.status = none → t.status.err = 0 ∧
      (match i with
        | .gfmul => t.BY = .value (gfMultiply s.BA.pattern s.BB.pattern)
        | .sbox => t.BY = .value (subByte s.BA.pattern)
        | .subbytes _ => t.ST = known (subBytes (patterns s.ST))
        | .shiftrows _ => t.ST = known (shiftRows (patterns s.ST))
        | .mixcolumns _ => t.ST = known (mixColumns (patterns s.ST))
        | .addroundkey _ _ => t.ST = known (addRoundKey (patterns s.ST) (patterns s.RK))
        | .expandkey n => ∀ k : Fin 60, k.val < 4 * (n / 4 + 7) →
            t.W[k] = known ((expandKey (n / 4) ((s.CK.toList.take n).map RegByte.pattern)).getD k.val zeroWord)
        | .loadrk r => ∀ m j : Fin 4, t.RK[4 * m.val + j.val]'(by omega) = .value (scheduleByte s (4 * r + m.val) j).pattern))

/-- R35: a command keeps to its row. It WRITES nothing outside it: GFMUL and SBOX only BY, the four transforms only ST, EXPANDKEY only W, KSV, KS_NK and KS_NR, LOADRK only RK, each of them ERR too. And it READS nothing outside it: two states that agree on the registers of its row end with the same ERR, the same model fault recorded or none, and the same result. (That a command also ends so on ⊥ operand bytes, with the result of the patterns they hold, is the model's choice, DESIGN CHOICE, notes/assumptions/1.md; the record and the numbering of the free values, which EXPANDKEY's ⊥ bytes draw on, are the model's own, notes/assumptions/17.md and 2.md.) -/
def Obligations.CommandsKeepToTheirRow : Prop :=
  (∀ (i : Instr) (s t : State), exec i s = .next t →
    t.CK = s.CK ∧ t.BA = s.BA ∧ t.BB = s.BB ∧ t.CMD = s.CMD ∧ t.pending = s.pending ∧ t.status.busy = s.status.busy ∧
    t.wait = s.wait ∧ t.queue = s.queue ∧ t.resp = s.resp ∧
    (t.recorded = s.recorded ∨ t.recorded = s.recorded ++ [.commandUsedBottom]) ∧
    (i ≠ .gfmul → i ≠ .sbox → t.BY = s.BY) ∧
    ((∀ n, i ≠ .subbytes n) → (∀ n, i ≠ .shiftrows n) → (∀ n, i ≠ .mixcolumns n) → (∀ n k, i ≠ .addroundkey n k) →
      t.ST = s.ST) ∧
    ((∀ r, i ≠ .loadrk r) → t.RK = s.RK) ∧
    ((∀ n, i ≠ .expandkey n) →
      t.W = s.W ∧ t.draws = s.draws ∧ t.status.ksv = s.status.ksv ∧ t.status.ksNk = s.status.ksNk ∧
      t.status.ksNr = s.status.ksNr)) ∧
  (∀ (i : Instr) (s s' : State),
    (match i with
      | .gfmul => s.BA = s'.BA ∧ s.BB = s'.BB
      | .sbox => s.BA = s'.BA
      | .subbytes _ => s.ST = s'.ST
      | .shiftrows _ => s.ST = s'.ST
      | .mixcolumns _ => s.ST = s'.ST
      | .addroundkey _ _ => s.ST = s'.ST ∧ s.RK = s'.RK
      | .expandkey n => s.CK.toList.take n = s'.CK.toList.take n
      | .loadrk r => s.status.ksv = s'.status.ksv ∧ s.status.ksNr = s'.status.ksNr ∧
          ∀ m j : Fin 4, scheduleByte s (4 * r + m.val) j = scheduleByte s' (4 * r + m.val) j) →
    ∃ t t', exec i s = .next t ∧ exec i s' = .next t' ∧ t.status.err = t'.status.err ∧
      (∃ l, t.recorded = s.recorded ++ l ∧ t'.recorded = s'.recorded ++ l) ∧
      (t.status.err = 0 →
        (match i with
          | .gfmul => t.BY = t'.BY
          | .sbox => t.BY = t'.BY
          | .subbytes _ => t.ST = t'.ST
          | .shiftrows _ => t.ST = t'.ST
          | .mixcolumns _ => t.ST = t'.ST
          | .addroundkey _ _ => t.ST = t'.ST
          | .expandkey _ => (∀ (k : Fin 60) (j : Fin 4), agreesByte t.W[k][j] t'.W[k][j]) ∧
              t.status.ksv = t'.status.ksv ∧ t.status.ksNk = t'.status.ksNk ∧ t.status.ksNr = t'.status.ksNr
          | .loadrk _ => t.RK = t'.RK)))

/-- R35 through the register window: every byte of the window outside the command's destination register and STATUS reads after the command as before it. Destinations: BY at 0x042, ST at 0x000..0x00F, RK at 0x010..0x01F, W at 0x050..0x13F. -/
def Obligations.CommandsLeaveOtherWindowBytes : Prop :=
  ∀ (i : Instr) (s t : State) (a : Nat), exec i s = .next t → ¬ (0x048 ≤ a ∧ a < 0x04C) →
    (match i with
      | .gfmul => a ≠ 0x042
      | .sbox => a ≠ 0x042
      | .subbytes _ => 0x010 ≤ a
      | .shiftrows _ => 0x010 ≤ a
      | .mixcolumns _ => 0x010 ≤ a
      | .addroundkey _ _ => 0x010 ≤ a
      | .expandkey _ => ¬ (0x050 ≤ a ∧ a < 0x140)
      | .loadrk _ => ¬ (0x010 ≤ a ∧ a < 0x020)) →
    windowByte t a = windowByte s a

/- ---- The core's step ---- -/

/-- R195: with a legal command pending, its latency run out and no reset, the step is `exec` of the decoded command, then completion: BUSY 0, no pending command, everything else as the command left it; where the command stops, so does the step. -/
def Obligations.StepRunsPendingCommand : Prop :=
  ∀ (s : State) (cmd : Word) (i : Instr), s.pending = some cmd → s.wait = 0 → resetNow s.queue = false →
    decode cmd = .command i →
    step s =
      (match exec i s with
        | .next t => .next { t with status := { t.status with busy := false }, pending := none, wait := 0 }
        | .fault f => .fault f
        | .refused r => .refused r)

/-- R68, R64: the words with OP 0x0 or 0x9..0xF, or with a reserved bit set, are illegal: when the core's step for one comes, it writes ERR 3, completes, and changes nothing else. -/
def Obligations.StepIllegalCommand : Prop :=
  ∀ (s : State) (cmd : Word), s.pending = some cmd → s.wait = 0 → resetNow s.queue = false →
    ((cmd &&& 0xF#32).toNat = 0 ∨ 9 ≤ (cmd &&& 0xF#32).toNat ∨ cmd &&& 0xFFC0C000#32 ≠ 0) →
    step s = .next { s with status := { s.status with err := 3, busy := false }, pending := none, wait := 0 }

/-- A word placed by `withFetchWord` is run by the very next step, for every state and word: the statement that ties the host's question to the machine. Its placing is the model's own (notes/assumptions/3.md). -/
def Obligations.PlacedWordRunsNext : Prop :=
  ∀ (s : State) (w : Nat) (i : Instr), decodeTableWord 32 w = some i →
    step (s.withFetchWord 32 w) =
      (match exec i (s.withFetchWord 32 w) with
        | .next t => .next { t with status := { t.status with busy := false }, pending := none, wait := 0 }
        | .fault f => .fault f
        | .refused r => .refused r)

/- ---- The host's accesses ---- -/

/-- R195, R199: the host's write of CMD while nothing is pending records the word as the pending command, sets BUSY, and CMD reads it back; every other register keeps its value, and the latency is LAT of the word's opcode, whatever that is. (The latency's place in the state and its numbering are the model's own, notes/assumptions/2.md.) -/
def Obligations.CmdWriteIssues : Prop :=
  ∀ (s : State) (v : Word) (q : List HostAction), s.pending = none →
    s.queue = .access (.write 0x044 4 v) :: q →
    step s = .next { s with
      CMD := v, pending := some v, status := { s.status with busy := true }
      wait := Config.latency (v.extractLsb' 0 4) s.draws, draws := s.draws + 1, queue := q, resp := .written }

/-- R47: the register map, byte by byte: which register each byte of the window reads. -/
def Obligations.RegisterMap : Prop :=
  ∀ s : State,
    (∀ i : Fin 16, windowByte s i.val = s.ST[i]) ∧ (∀ i : Fin 16, windowByte s (0x010 + i.val) = s.RK[i]) ∧
    (∀ i : Fin 32, windowByte s (0x020 + i.val) = s.CK[i]) ∧
    windowByte s 0x040 = s.BA ∧ windowByte s 0x041 = s.BB ∧ windowByte s 0x042 = s.BY ∧ windowByte s 0x043 = .value 0 ∧
    (∀ j : Fin 4, windowByte s (0x044 + j.val) = .value (s.CMD.extractLsb' (8 * j.val) 8)) ∧
    (∀ j : Fin 4, windowByte s (0x048 + j.val) = .value ((statusWord s.status).extractLsb' (8 * j.val) 8)) ∧
    (∀ j : Fin 4, windowByte s (0x04C + j.val) = .value 0) ∧
    (∀ (i : Fin 60) (j : Fin 4), windowByte s (0x050 + 4 * i.val + j.val) = s.W[i][j]) ∧
    (∀ a : Nat, 0x140 ≤ a → a < 0x400 → windowByte s a = .value 0)

/-- R42, R47: an idle core's write of a word to a register of ST, RK or CK: the four bytes at the offset take the word's bytes, little-endian, every other byte of the window reads as before, and a read of the offset then gives the word back and records nothing. -/
def Obligations.OperandWriteThenRead : Prop :=
  ∀ (s : State) (off : BitVec 10) (v : Word) (q : List HostAction), s.pending = none → off.toNat % 4 = 0 →
    off.toNat < 0x040 → s.queue = .access (.write off 4 v) :: .access (.read off 4) :: q →
    ∃ t u, step s = .next t ∧ step t = .next u ∧ u.resp = .data v ∧ u.recorded = s.recorded ∧
      (∀ j : Fin 4, windowByte t (off.toNat + j.val) = .value (v.extractLsb' (8 * j.val) 8)) ∧
      (∀ a : Nat, (a < off.toNat ∨ off.toNat + 4 ≤ a) → windowByte t a = windowByte s a)

/-- R47: a write to BYTEOPS updates BA from `v[7:0]` and BB from `v[15:8]` and ignores the rest; a read of BYTEOPS returns `BA | BB << 8 | BY << 16`. -/
def Obligations.ByteopsWriteAndRead : Prop :=
  (∀ (s : State) (v : Word) (q : List HostAction), s.pending = none → s.queue = .access (.write 0x040 4 v) :: q →
    step s = .next { s with
      BA := .value (v.extractLsb' 0 8), BB := .value (v.extractLsb' 8 8), queue := q, resp := .written }) ∧
  (∀ (s : State) (a b y : Byte) (q : List HostAction), s.pending = none → s.queue = .access (.read 0x040 4) :: q →
    s.BA = .value a → s.BB = .value b → s.BY = .value y →
    step s = .next { s with
      queue := q, resp := .data (a.zeroExtend 32 ||| (b.zeroExtend 32 <<< 8) ||| (y.zeroExtend 32 <<< 16)) })

/-- R48: a write to a read-only register (STATUS, W) or a reserved offset completes without an error and changes nothing, and a write of BYTEOPS leaves BY; a read of a reserved offset returns 0, and so do byte 3 of BYTEOPS and the reserved bits of STATUS. -/
def Obligations.ReadOnlyAndReservedOffsets : Prop :=
  (∀ (s : State) (off : BitVec 10) (v : Word) (q : List HostAction), s.pending = none → off.toNat % 4 = 0 →
    0x048 ≤ off.toNat → s.queue = .access (.write off 4 v) :: q →
    step s = .next { s with queue := q, resp := .written }) ∧
  (∀ (s : State) (v : Word) (q : List HostAction), s.pending = none → s.queue = .access (.write 0x040 4 v) :: q →
    ∃ t, step s = .next t ∧ t.BY = s.BY ∧ t.status = s.status ∧ t.resp = .written) ∧
  (∀ (s : State) (off : BitVec 10) (q : List HostAction), s.pending = none → off.toNat % 4 = 0 →
    (off = 0x04C ∨ 0x140 ≤ off.toNat) → s.queue = .access (.read off 4) :: q →
    step s = .next { s with queue := q, resp := .data 0 }) ∧
  (∀ s : State, windowByte s 0x043 = .value 0) ∧ (∀ t : Status, statusWord t &&& 0xF00EF8FE#32 = 0)

/-- R28, R29, R197: STATUS and CMD may be read at any time, busy or not. STATUS returns BUSY at bit 0, ERR at 10:8, KSV at 16, KS_NK at 23:20, KS_NR at 27:24 and 0 everywhere else; CMD returns the last word written. A read changes nothing but the bus. -/
def Obligations.StatusAndCmdReads : Prop :=
  ∀ (s : State) (q : List HostAction), (s.pending = none ∨ 0 < s.wait) →
    (s.queue = .access (.read 0x048 4) :: q →
      step s = .next { s with
        queue := q, wait := (if s.pending = none then s.wait else s.wait - 1)
        resp := .data (BitVec.ofNat 32 (s.status.busy.toNat + 2 ^ 8 * s.status.err.toNat + 2 ^ 16 * s.status.ksv.toNat +
          2 ^ 20 * s.status.ksNk.toNat + 2 ^ 24 * s.status.ksNr.toNat)) }) ∧
    (s.queue = .access (.read 0x044 4) :: q →
      step s = .next { s with
        queue := q, wait := (if s.pending = none then s.wait else s.wait - 1), resp := .data s.CMD })

/-- R49: an idle core's read of a window word is the little-endian word of its four bytes, and is recorded as a model fault as soon as one of them is ⊥. That the read is answered there is the model's choice (DESIGN CHOICE, notes/assumptions/1.md), and so is the form of the record (notes/assumptions/17.md). -/
def Obligations.ReadOfBottomIsRecorded : Prop :=
  ∀ (s : State) (off : BitVec 10) (q : List HostAction), s.pending = none → off.toNat % 4 = 0 →
    s.queue = .access (.read off 4) :: q →
    ((∃ j : Fin 4, isBottom (windowByte s (off.toNat + j.val))) →
      ∃ t, step s = .next t ∧ t.recorded = s.recorded ++ [.hostReadBottom]) ∧
    (∀ b : Vector Byte 4, (∀ j : Fin 4, windowByte s (off.toNat + j.val) = .value b[j]) →
      step s = .next { s with
        queue := q
        resp := .data (b[0].zeroExtend 32 ||| (b[1].zeroExtend 32 <<< 8) ||| (b[2].zeroExtend 32 <<< 16) |||
          (b[3].zeroExtend 32 <<< 24)) })

/-- What the bus gives for a word that holds a ⊥ byte: the patterns the four bytes hold, little-endian, where R49 says "returns unspecified data on the chip". The read changes nothing but the bus and the record. That it is the pattern held is the model's choice (DESIGN CHOICE, notes/assumptions/1.md). -/
def Obligations.ReadOfBottomGivesPatterns : Prop :=
  ∀ (s : State) (off : BitVec 10) (q : List HostAction), s.pending = none → off.toNat % 4 = 0 →
    s.queue = .access (.read off 4) :: q → (∃ j : Fin 4, isBottom (windowByte s (off.toNat + j.val))) →
    step s = .next { s with
      queue := q, recorded := s.recorded ++ [.hostReadBottom]
      resp := .data ((windowByte s off.toNat).pattern.zeroExtend 32 |||
        ((windowByte s (off.toNat + 1)).pattern.zeroExtend 32 <<< 8) |||
        ((windowByte s (off.toNat + 2)).pattern.zeroExtend 32 <<< 16) |||
        ((windowByte s (off.toNat + 3)).pattern.zeroExtend 32 <<< 24)) }

/-- How a misaligned access, or one that is not 32 bits wide, stops, whether the core is busy or idle (R44, R45). Which fault is NAMED is the model's choice where more than one applies (DESIGN CHOICE, notes/assumptions/5.md): a narrow misaligned access is badWidth, and a narrow or misaligned access on a busy core is badWidth or misaligned and not busyAccess. -/
def Obligations.MisalignedAndNarrowAccessesFault : Prop :=
  ∀ (s : State) (off : BitVec 10) (bytes : Nat) (v : Word) (q : List HostAction), (s.pending = none ∨ 0 < s.wait) →
    (s.queue = .access (.read off bytes) :: q ∨ s.queue = .access (.write off bytes v) :: q) →
    (bytes ≠ 4 → step s = .fault .badWidth) ∧
    (bytes = 4 → off.toNat % 4 ≠ 0 → step s = .fault .misaligned)

/-- R44, R45: a misaligned access, or one that is not 32 bits wide, stops with a model fault, whether the core is busy or idle: it is not performed. -/
def Obligations.MisalignedOrNarrowAccessStops : Prop :=
  ∀ (s : State) (off : BitVec 10) (bytes : Nat) (v : Word) (q : List HostAction), (s.pending = none ∨ 0 < s.wait) →
    (s.queue = .access (.read off bytes) :: q ∨ s.queue = .access (.write off bytes v) :: q) →
    (bytes ≠ 4 ∨ off.toNat % 4 ≠ 0) → ∃ f : Fault, step s = .fault f

/-- R199's "Any other access when `pending = some _`: fault" (R197): an aligned 32-bit access other than a STATUS or CMD read, in a bus cycle in which a command is pending. -/
def Obligations.BusyAccessFaults : Prop :=
  ∀ (s : State) (cmd : Word) (off : BitVec 10) (v : Word) (q : List HostAction), s.pending = some cmd → 0 < s.wait →
    off.toNat % 4 = 0 →
    ((s.queue = .access (.read off 4) :: q → off ≠ 0x044 → off ≠ 0x048 → step s = .fault .busyAccess) ∧
      (s.queue = .access (.write off 4 v) :: q → step s = .fault .busyAccess))

/- ---- Reset and idling ---- -/

/-- R38: the state after reset. (The patterns in the ⊥ bytes are no part of it: notes/assumptions/1.md.) -/
def Obligations.ResetValues : Prop :=
  (∀ i : Fin 16, isBottom State.reset.ST[i]) ∧ (∀ i : Fin 16, isBottom State.reset.RK[i]) ∧
  (∀ i : Fin 32, isBottom State.reset.CK[i]) ∧
  isBottom State.reset.BA ∧ isBottom State.reset.BB ∧ isBottom State.reset.BY ∧
  (∀ (i : Fin 60) (j : Fin 4), isBottom State.reset.W[i][j]) ∧
  State.reset.CMD = 0x00000000 ∧ statusWord State.reset.status = 0x00000000 ∧ State.reset.pending = none

/-- Reset in any state, idle or while a command is pending, gives State.reset (R190, R191), with the host's own queue, the numbering of the free values and the record going on, which are the model's own (notes/assumptions/2.md, 3.md, 13.md, 17.md). A host access at the same time as reset stops under the one name accessDuringReset, also where it is misaligned or narrow (DESIGN CHOICE, notes/assumptions/5.md). -/
def Obligations.ResetStep : Prop :=
  ∀ (s : State) (q : List HostAction),
    (s.queue = .reset :: q →
      step s = .next { State.reset with queue := q, draws := s.draws, recorded := s.recorded }) ∧
    (∀ a : Access, s.queue = .resetDuring a :: q → step s = .fault .accessDuringReset)

/-- R190, R191: reset in any state, idle or while a command is pending, leaves every data byte ⊥, CMD and STATUS 0x00000000 and nothing pending: the pending command writes no register and no ERR, and the core is idle with BUSY = 0. A host access at the same time as reset is a model fault: it is not performed. -/
def Obligations.ResetGivesResetState : Prop :=
  ∀ (s : State) (q : List HostAction),
    (s.queue = .reset :: q → ∃ t, step s = .next t ∧ allBottom t ∧ t.CMD = 0x00000000 ∧
      statusWord t.status = 0x00000000 ∧ t.status.busy = false ∧ t.pending = none) ∧
    (∀ a : Access, s.queue = .resetDuring a :: q → ∃ f : Fault, step s = .fault f)

/-- R184, R192: with no command pending and no access by the host, the core holds all its state. -/
def Obligations.IdleCoreHoldsState : Prop :=
  ∀ s : State, s.pending = none →
    (s.queue = [] → step s = .next { s with resp := .quiet }) ∧
    (∀ q, s.queue = .idle :: q → step s = .next { s with queue := q, resp := .quiet })

/- ---- Invariants and whole-machine rules ---- -/

/-- The status invariant and the schedule invariant hold at reset (R38, R29). -/
def Obligations.InvariantsAtReset : Prop := statusInv State.reset ∧ scheduleInv State.reset

/-- R29: "The only legal (KSV, KS_NK, KS_NR) triples are ... No other combination is ever produced": every step keeps the status invariant, in which BUSY is 1 exactly while a command is pending, CMD reads the pending word back, ERR is no reserved code and the triple is legal. -/
def Obligations.StepKeepsStatusInvariant : Prop :=
  ∀ s t : State, statusInv s → step s = .next t → statusInv t

/-- R27, R29: every step keeps it that W is the complete key schedule of some key of the length STATUS names when KSV = 1, with ⊥ above it, and all ⊥ when KSV = 0. (Nothing is claimed of the patterns in ⊥ bytes.) -/
def Obligations.StepKeepsScheduleInvariant : Prop :=
  ∀ s t : State, statusInv s → scheduleInv s → step s = .next t → scheduleInv t

/-- R27, R31, R152: W, KSV, KS_NK and KS_NR change only in a successful EXPANDKEY step, which sets KSV 1, KS_NK = KLEN/4 and KS_NR = KLEN/4 + 6, or in a reset step, which sets all three to 0. -/
def Obligations.ScheduleChangesOnlyByExpandkeyOrReset : Prop :=
  ∀ s t : State, step s = .next t →
    (t.W ≠ s.W ∨ t.status.ksv ≠ s.status.ksv ∨ t.status.ksNk ≠ s.status.ksNk ∨ t.status.ksNr ≠ s.status.ksNr) →
    (∃ cmd klen, s.pending = some cmd ∧ s.wait = 0 ∧ decode cmd = .command (.expandkey klen) ∧
      (klen = 16 ∨ klen = 24 ∨ klen = 32) ∧ t.status.ksv = true ∧ t.status.ksNk.toNat = klen / 4 ∧
      t.status.ksNr.toNat = klen / 4 + 6) ∨
    (∃ q, s.queue = .reset :: q ∧ t.status.ksv = false ∧ t.status.ksNk = 0 ∧ t.status.ksNr = 0)

/-- R25: no command writes CK: CK changes only in a bus cycle in which the host writes an offset of CK, or in a reset step. And BY (R26), which the host can only read, changes only in a GFMUL or SBOX step or in a reset step. -/
def Obligations.KeyAndResultRegisterWriters : Prop :=
  ∀ s t : State, step s = .next t →
    (t.CK ≠ s.CK →
      (s.pending = none ∧ ∃ off v q, s.queue = .access (.write off 4 v) :: q ∧ 0x020 ≤ off.toNat ∧ off.toNat < 0x040) ∨
      (∃ q, s.queue = .reset :: q)) ∧
    (t.BY ≠ s.BY →
      (∃ cmd, s.pending = some cmd ∧ s.wait = 0 ∧ (decode cmd = .command .gfmul ∨ decode cmd = .command .sbox)) ∨
      (∃ q, s.queue = .reset :: q))

/-- R173: every completed command writes STATUS.ERR, 0 when its success path ran and else the code of its first failing check (3 for an illegal word); and STATUS.ERR changes at no other step but reset, which sets it to 0: it is not sticky and no access of the host clears it. -/
def Obligations.ErrDescribesLastCommand : Prop :=
  (∀ (s t : State) (cmd : Word), s.pending = some cmd → s.wait = 0 → resetNow s.queue = false → step s = .next t →
    t.pending = none ∧
      t.status.err = (match decode cmd with
        | .illegal _ => 3
        | .command i => match check i s.status with
          | none => 0
          | some e => e.code)) ∧
  (∀ s t : State, step s = .next t → t.status.err ≠ s.status.err →
    (∃ cmd, s.pending = some cmd ∧ s.wait = 0 ∧ t.pending = none) ∨ (∃ q, s.queue = .reset :: q ∧ t.status.err = 0))

/-- R199's weak fairness as a bound: a host that polls gets its answer. (The countdown `wait` is the model's own, notes/assumptions/2.md, and so is POLL as one host action, notes/assumptions/6.md.) With a command pending and POLL next in the queue, the core's step of the command answers a state, and `wait + 2` steps end with BUSY = 0, the POLL done, its answer the STATUS word after the command, and the registers as the command's step left them. -/
def Obligations.PollCompletes : Prop :=
  ∀ (s : State) (cmd : Word) (q : List HostAction), s.pending = some cmd → s.status.busy = true → s.queue = .poll :: q →
    ∃ t, coreStep cmd s = .next t ∧
      Sys2Proof.core.run (s.wait + 2) s = .next { t with queue := q, resp := .data (statusWord t.status) } ∧
      t.status.busy = false ∧ t.pending = none

/-- R197: "The host discharges the hazard with `POLL`": a host that polls after each CMD write before any other access than STATUS and CMD reads never meets the busy fault, in any number of steps and for every latency. (POLL as one host action is the model's own, notes/assumptions/6.md.) -/
def Obligations.DisciplinedHostNeverMeetsBusyFault : Prop :=
  ∀ (k : Nat) (s : State), statusInv s → disciplined s.pending.isSome s.queue = true →
    Sys2Proof.core.run k s ≠ .fault .busyAccess

/-- R197's discipline as an invariant: from a state that meets the status invariant and whose host polls between a CMD write and any other access than STATUS and CMD reads, the step is not the busy fault, and every next state is such a state again. (POLL as one host action is the model's own, notes/assumptions/6.md.) -/
def Obligations.StepKeepsDiscipline : Prop :=
  ∀ s : State, statusInv s → disciplined s.pending.isSome s.queue = true →
    step s ≠ .fault .busyAccess ∧
      ∀ t : State, step s = .next t → statusInv t ∧ disciplined t.pending.isSome t.queue = true

/-- What the patterns in ⊥ bytes are never shows in a run that records nothing (R33, 92_eei_decisions.md D25): if `k` steps answer a next state and record no model fault, then from the same state with any other patterns in its ⊥ bytes `k` steps answer the same state, but for patterns in ⊥ bytes: same values, same STATUS, same bus answer, same record. So no result of such a run rests on the pattern 0x00 that State.reset holds (notes/assumptions/1.md). Both runs draw the same free values, because the model's latency takes no operand value (DESIGN CHOICE, notes/assumptions/2.md). -/
def Obligations.UnrecordedRunsIgnoreBottomPatterns : Prop :=
  ∀ (k : Nat) (s s' t : State), agrees s s' → Sys2Proof.core.run k s = .next t → t.recorded = s.recorded →
    ∃ t', Sys2Proof.core.run k s' = .next t' ∧ agrees t t'

/- ---- Several instances, and the assembler's macros ---- -/

/-- R58, R50: a step of one instance leaves every other instance as it was, and an access reaches exactly the instances in whose 1 KiB window its address lies, at the offset from their BASE. -/
def Obligations.InstancesShareNothing : Prop :=
  (∀ (sys sys' : System) (k j : Nat), sys.stepAt k = .next sys' → j ≠ k → sys'[j]? = sys[j]?) ∧
  (∀ (sys : System) (j : Nat) (m : Instance) (off bytes : Nat) (v : Word), sys[j]? = some m → off < 1024 →
    (sys.request (.write (m.base + off) bytes v))[j]? =
      some { m with core := { m.core with queue := m.core.queue ++ [.access (.write (BitVec.ofNat 10 off) bytes v)] } } ∧
    (sys.request (.read (m.base + off) bytes))[j]? =
      some { m with core := { m.core with queue := m.core.queue ++ [.access (.read (BitVec.ofNat 10 off) bytes)] } }) ∧
  (∀ (sys : System) (j : Nat) (m : Instance) (a : SystemAccess), sys[j]? = some m →
    (a.addr < m.base ∨ m.base + 1024 ≤ a.addr) → (sys.request a)[j]? = some m)

/-- R73: `LDST b0..b15` on an idle core: four steps load ST with the sixteen bytes, and nothing else changes but the bus. -/
def Obligations.LdstLoadsState : Prop :=
  ∀ (s : State) (b : Block) (q : List HostAction), s.pending = none → s.queue = HostLine.expand (.ldst b) ++ q →
    Sys2Proof.core.run 4 s = .next { s with ST := known b, queue := q, resp := .written }

/-- R73's `ROUND r`, for every latency: from an idle core that holds a block in ST and a key schedule with round `r`, the macro's five command lines, each polled, end with ST the AES round of the block under round key `r`, RK that round key, ERR 0, nothing recorded, and W, CK, BA, BB and BY as they were. (POLL as one host action, and the macro as data, are the model's own form, notes/assumptions/6.md and 7.md.) -/
def Obligations.RoundMacroComputesAesRound : Prop :=
  ∀ (s : State) (b : Block) (r : Nat) (q : List HostAction),
    statusInv s → scheduleInv s → s.pending = none → s.status.ksv = true → r ≤ s.status.ksNr.toNat → s.ST = known b →
    s.queue = HostLine.expand (.round r) ++ q →
    ∃ (n : Nat) (t : State) (k : Block), Sys2Proof.core.run n s = .next t ∧
      (∀ m j : Fin 4, scheduleByte s (4 * r + m.val) j = .value (k[4 * m.val + j.val]'(by omega))) ∧
      t.ST = known (addRoundKey (mixColumns (shiftRows (subBytes b))) k) ∧ t.RK = known k ∧
      t.status.err = 0 ∧ t.status.busy = false ∧ t.pending = none ∧ t.queue = q ∧
      t.W = s.W ∧ t.CK = s.CK ∧ t.BA = s.BA ∧ t.BB = s.BB ∧ t.BY = s.BY ∧ t.recorded = s.recorded
end

