-- ==== Sys2Proof/Laws/Bytes.lean ====
section
/-! SUPPORT. Bytes of a word, and registers whose bytes all hold values. -/

namespace Sys2Proof.Machine

/-- Bit `i` of byte `j` of a word. -/
theorem byteOf_getLsbD (v : Word) (j i : Nat) (h : i < 8) : (byteOf v j).getLsbD i = v.getLsbD (8 * j + i) := by
  simp [byteOf, h]

/-- Bit `i` of a packed word. -/
theorem wordOf_getLsbD (b0 b1 b2 b3 : Byte) (i : Nat) (h : i < 32) :
    (wordOf b0 b1 b2 b3).getLsbD i =
      if i < 8 then b0.getLsbD i else if i < 16 then b1.getLsbD (i - 8)
      else if i < 24 then b2.getLsbD (i - 16) else b3.getLsbD (i - 24) := by
  have out : ∀ (b : Byte) (k : Nat), 8 ≤ k → b.getLsbD k = false := fun b k hk => BitVec.getLsbD_of_ge b k hk
  simp only [wordOf, BitVec.getLsbD_or, BitVec.getLsbD_shiftLeft, BitVec.getLsbD_setWidth, h, decide_true, Bool.true_and]
  split
  · simp [show i < 16 by omega, show i < 24 by omega, show i < 8 by omega]
  · split
    · simp [out b0 i (by omega), show i < 24 by omega, show ¬ i < 8 by omega, show i < 16 by omega, show i - 8 < 32 by omega]
    · split
      · simp [out b0 i (by omega), out b1 (i - 8) (by omega), show ¬ i < 16 by omega, show i < 24 by omega,
          show i - 16 < 32 by omega]
      · simp [out b0 i (by omega), out b1 (i - 8) (by omega), out b2 (i - 16) (by omega), show ¬ i < 24 by omega,
          show i - 24 < 32 by omega]

/-- Taking the bytes of a packed word gives them back, in bus order. -/
theorem byteOf_wordOf (b0 b1 b2 b3 : Byte) :
    byteOf (wordOf b0 b1 b2 b3) 0 = b0 ∧ byteOf (wordOf b0 b1 b2 b3) 1 = b1 ∧
      byteOf (wordOf b0 b1 b2 b3) 2 = b2 ∧ byteOf (wordOf b0 b1 b2 b3) 3 = b3 := by
  refine ⟨?_, ?_, ?_, ?_⟩ <;>
  · refine BitVec.eq_of_getLsbD_eq fun i hi => ?_
    rw [byteOf_getLsbD _ _ _ hi, wordOf_getLsbD _ _ _ _ _ (by omega)]
    simp [hi, show ¬ 8 + i < 8 by omega, show ¬ 16 + i < 8 by omega, show ¬ 24 + i < 8 by omega, show 8 + i < 16 by omega,
      show ¬ 16 + i < 16 by omega, show ¬ 24 + i < 16 by omega, show 16 + i < 24 by omega, show ¬ 24 + i < 24 by omega]

/-- Packing the bytes of a word gives it back. -/
@[simp] theorem wordOf_byteOf (v : Word) : wordOf (byteOf v 0) (byteOf v 1) (byteOf v 2) (byteOf v 3) = v := by
  refine BitVec.eq_of_getLsbD_eq fun i hi => ?_
  rw [wordOf_getLsbD _ _ _ _ _ hi]
  split
  · rw [byteOf_getLsbD _ _ _ (by omega)]; congr 1; omega
  · split
    · rw [byteOf_getLsbD _ _ _ (by omega)]; congr 1; omega
    · split
      · rw [byteOf_getLsbD _ _ _ (by omega)]; congr 1; omega
      · rw [byteOf_getLsbD _ _ _ (by omega)]; congr 1; omega

@[simp] theorem tabulate_getElem {α : Type} {n : Nat} (f : Fin n → α) (i : Nat) (h : i < n) :
    (tabulate f)[i] = f ⟨i, h⟩ := by
  simp [tabulate]

section
variable {n : Nat}

@[simp] theorem known_getElem (v : Vector Byte n) (i : Nat) (h : i < n) : (known v)[i] = .value v[i] := by
  simp [known]

@[simp] theorem patterns_getElem (v : Vector RegByte n) (i : Nat) (h : i < n) : (patterns v)[i] = v[i].pattern := by
  simp [patterns]

@[simp] theorem patterns_known (b : Vector Byte n) : patterns (known b) = b := by
  ext1 i hi; simp [RegByte.pattern]

/-- `allHeld` says it of every byte of the list. -/
theorem allHeld_iff {l : List RegByte} : allHeld l = true ↔ ∀ b ∈ l, b.held = true := by simp [allHeld]

/-- `allHeld` fails exactly when some byte of the list is ⊥. -/
theorem allHeld_eq_false {l : List RegByte} : allHeld l = false ↔ ∃ b ∈ l, b.held = false := by simp [allHeld]

@[simp] theorem allHeld_append (l m : List RegByte) : allHeld (l ++ m) = (allHeld l && allHeld m) := by simp [allHeld]

@[simp] theorem allHeld_map_value (l : List Byte) : allHeld (l.map .value) = true := by
  simp [allHeld, RegByte.held]

@[simp] theorem map_pattern_map_value (l : List Byte) : (l.map RegByte.value).map RegByte.pattern = l := by
  simp [Function.comp_def, RegByte.pattern]

/-- A register holds no ⊥ exactly when each of its bytes is a value. -/
theorem allHeld_toList {v : Vector RegByte n} : allHeld v.toList = true ↔ ∀ (i : Nat) (h : i < n), v[i].held = true := by
  rw [allHeld_iff]
  constructor
  · intro h i hi; exact h _ (by simp)
  · rintro h x hx
    obtain ⟨i, hi, rfl⟩ := List.getElem_of_mem hx
    simpa using h i (by simpa using hi)

/-- A register has a ⊥ byte exactly when some entry is ⊥. -/
theorem allHeld_toList_eq_false {v : Vector RegByte n} :
    allHeld v.toList = false ↔ ∃ (i : Nat) (h : i < n), v[i].held = false := by
  rw [← Bool.not_eq_true, allHeld_toList]
  simp

@[simp] theorem allHeld_known (b : Vector Byte n) : allHeld (known b).toList = true :=
  allHeld_toList.mpr fun i hi => by simp [RegByte.held]

/-- A byte that holds a value is that value. -/
theorem eq_value_of_held {b : RegByte} (h : b.held = true) : b = .value b.pattern := by
  cases b <;> first | rfl | cases h

/-- A register that holds no ⊥ holds the values its patterns show. -/
theorem eq_known_of_allHeld {v : Vector RegByte n} (h : allHeld v.toList = true) : v = known (patterns v) := by
  ext1 i hi
  rw [known_getElem, patterns_getElem]
  exact eq_value_of_held (allHeld_toList.mp h i hi)

end

end Sys2Proof.Machine
end

