-- ==== Sys2Proof/Laws/State.lean ====
section
/-! SUPPORT. For each named update of the state, the value of each field after it. -/

namespace Sys2Proof.Machine

variable (s : State)

@[simp] theorem State.raise_eq_setErr (e : CmdError) : s.raise e = s.setErr e.code := rfl
@[simp] theorem State.succeed_eq_setErr : s.succeed = s.setErr 0 := rfl

@[simp] theorem State.setErr_ST (e : BitVec 3) : (s.setErr e).ST = s.ST := rfl
@[simp] theorem State.setErr_RK (e : BitVec 3) : (s.setErr e).RK = s.RK := rfl
@[simp] theorem State.setErr_CK (e : BitVec 3) : (s.setErr e).CK = s.CK := rfl
@[simp] theorem State.setErr_BA (e : BitVec 3) : (s.setErr e).BA = s.BA := rfl
@[simp] theorem State.setErr_BB (e : BitVec 3) : (s.setErr e).BB = s.BB := rfl
@[simp] theorem State.setErr_BY (e : BitVec 3) : (s.setErr e).BY = s.BY := rfl
@[simp] theorem State.setErr_W (e : BitVec 3) : (s.setErr e).W = s.W := rfl
@[simp] theorem State.setErr_CMD (e : BitVec 3) : (s.setErr e).CMD = s.CMD := rfl
@[simp] theorem State.setErr_status (e : BitVec 3) : (s.setErr e).status = { s.status with err := e } := rfl
@[simp] theorem State.setErr_pending (e : BitVec 3) : (s.setErr e).pending = s.pending := rfl
@[simp] theorem State.setErr_wait (e : BitVec 3) : (s.setErr e).wait = s.wait := rfl
@[simp] theorem State.setErr_draws (e : BitVec 3) : (s.setErr e).draws = s.draws := rfl
@[simp] theorem State.setErr_queue (e : BitVec 3) : (s.setErr e).queue = s.queue := rfl
@[simp] theorem State.setErr_resp (e : BitVec 3) : (s.setErr e).resp = s.resp := rfl
@[simp] theorem State.setErr_recorded (e : BitVec 3) : (s.setErr e).recorded = s.recorded := rfl

@[simp] theorem State.complete_ST : (s.complete).ST = s.ST := rfl
@[simp] theorem State.complete_RK : (s.complete).RK = s.RK := rfl
@[simp] theorem State.complete_CK : (s.complete).CK = s.CK := rfl
@[simp] theorem State.complete_BA : (s.complete).BA = s.BA := rfl
@[simp] theorem State.complete_BB : (s.complete).BB = s.BB := rfl
@[simp] theorem State.complete_BY : (s.complete).BY = s.BY := rfl
@[simp] theorem State.complete_W : (s.complete).W = s.W := rfl
@[simp] theorem State.complete_CMD : (s.complete).CMD = s.CMD := rfl
@[simp] theorem State.complete_status : (s.complete).status = { s.status with busy := false } := rfl
@[simp] theorem State.complete_pending : (s.complete).pending = none := rfl
@[simp] theorem State.complete_wait : (s.complete).wait = 0 := rfl
@[simp] theorem State.complete_draws : (s.complete).draws = s.draws := rfl
@[simp] theorem State.complete_queue : (s.complete).queue = s.queue := rfl
@[simp] theorem State.complete_resp : (s.complete).resp = s.resp := rfl
@[simp] theorem State.complete_recorded : (s.complete).recorded = s.recorded := rfl

@[simp] theorem State.holdCommand_ST (v : Word) (n : Nat) : (s.holdCommand v n).ST = s.ST := rfl
@[simp] theorem State.holdCommand_RK (v : Word) (n : Nat) : (s.holdCommand v n).RK = s.RK := rfl
@[simp] theorem State.holdCommand_CK (v : Word) (n : Nat) : (s.holdCommand v n).CK = s.CK := rfl
@[simp] theorem State.holdCommand_BA (v : Word) (n : Nat) : (s.holdCommand v n).BA = s.BA := rfl
@[simp] theorem State.holdCommand_BB (v : Word) (n : Nat) : (s.holdCommand v n).BB = s.BB := rfl
@[simp] theorem State.holdCommand_BY (v : Word) (n : Nat) : (s.holdCommand v n).BY = s.BY := rfl
@[simp] theorem State.holdCommand_W (v : Word) (n : Nat) : (s.holdCommand v n).W = s.W := rfl
@[simp] theorem State.holdCommand_CMD (v : Word) (n : Nat) : (s.holdCommand v n).CMD = v := rfl
@[simp] theorem State.holdCommand_status (v : Word) (n : Nat) : (s.holdCommand v n).status = { s.status with busy := true } := rfl
@[simp] theorem State.holdCommand_pending (v : Word) (n : Nat) : (s.holdCommand v n).pending = some v := rfl
@[simp] theorem State.holdCommand_wait (v : Word) (n : Nat) : (s.holdCommand v n).wait = n := rfl
@[simp] theorem State.holdCommand_draws (v : Word) (n : Nat) : (s.holdCommand v n).draws = s.draws := rfl
@[simp] theorem State.holdCommand_queue (v : Word) (n : Nat) : (s.holdCommand v n).queue = s.queue := rfl
@[simp] theorem State.holdCommand_resp (v : Word) (n : Nat) : (s.holdCommand v n).resp = s.resp := rfl
@[simp] theorem State.holdCommand_recorded (v : Word) (n : Nat) : (s.holdCommand v n).recorded = s.recorded := rfl

@[simp] theorem State.issue_ST (v : Word) : (s.issue v).ST = s.ST := rfl
@[simp] theorem State.issue_RK (v : Word) : (s.issue v).RK = s.RK := rfl
@[simp] theorem State.issue_CK (v : Word) : (s.issue v).CK = s.CK := rfl
@[simp] theorem State.issue_BA (v : Word) : (s.issue v).BA = s.BA := rfl
@[simp] theorem State.issue_BB (v : Word) : (s.issue v).BB = s.BB := rfl
@[simp] theorem State.issue_BY (v : Word) : (s.issue v).BY = s.BY := rfl
@[simp] theorem State.issue_W (v : Word) : (s.issue v).W = s.W := rfl
@[simp] theorem State.issue_CMD (v : Word) : (s.issue v).CMD = v := rfl
@[simp] theorem State.issue_status (v : Word) : (s.issue v).status = { s.status with busy := true } := rfl
@[simp] theorem State.issue_pending (v : Word) : (s.issue v).pending = some v := rfl
@[simp] theorem State.issue_wait (v : Word) : (s.issue v).wait = Config.latency (opField v) s.draws := rfl
@[simp] theorem State.issue_draws (v : Word) : (s.issue v).draws = s.draws + 1 := rfl
@[simp] theorem State.issue_queue (v : Word) : (s.issue v).queue = s.queue := rfl
@[simp] theorem State.issue_resp (v : Word) : (s.issue v).resp = s.resp := rfl
@[simp] theorem State.issue_recorded (v : Word) : (s.issue v).recorded = s.recorded := rfl

@[simp] theorem State.setST_ST (b : Block) : (s.setST b).ST = known b := rfl
@[simp] theorem State.setST_RK (b : Block) : (s.setST b).RK = s.RK := rfl
@[simp] theorem State.setST_CK (b : Block) : (s.setST b).CK = s.CK := rfl
@[simp] theorem State.setST_BA (b : Block) : (s.setST b).BA = s.BA := rfl
@[simp] theorem State.setST_BB (b : Block) : (s.setST b).BB = s.BB := rfl
@[simp] theorem State.setST_BY (b : Block) : (s.setST b).BY = s.BY := rfl
@[simp] theorem State.setST_W (b : Block) : (s.setST b).W = s.W := rfl
@[simp] theorem State.setST_CMD (b : Block) : (s.setST b).CMD = s.CMD := rfl
@[simp] theorem State.setST_status (b : Block) : (s.setST b).status = s.status := rfl
@[simp] theorem State.setST_pending (b : Block) : (s.setST b).pending = s.pending := rfl
@[simp] theorem State.setST_wait (b : Block) : (s.setST b).wait = s.wait := rfl
@[simp] theorem State.setST_draws (b : Block) : (s.setST b).draws = s.draws := rfl
@[simp] theorem State.setST_queue (b : Block) : (s.setST b).queue = s.queue := rfl
@[simp] theorem State.setST_resp (b : Block) : (s.setST b).resp = s.resp := rfl
@[simp] theorem State.setST_recorded (b : Block) : (s.setST b).recorded = s.recorded := rfl

@[simp] theorem State.setRK_ST (b : Block) : (s.setRK b).ST = s.ST := rfl
@[simp] theorem State.setRK_RK (b : Block) : (s.setRK b).RK = known b := rfl
@[simp] theorem State.setRK_CK (b : Block) : (s.setRK b).CK = s.CK := rfl
@[simp] theorem State.setRK_BA (b : Block) : (s.setRK b).BA = s.BA := rfl
@[simp] theorem State.setRK_BB (b : Block) : (s.setRK b).BB = s.BB := rfl
@[simp] theorem State.setRK_BY (b : Block) : (s.setRK b).BY = s.BY := rfl
@[simp] theorem State.setRK_W (b : Block) : (s.setRK b).W = s.W := rfl
@[simp] theorem State.setRK_CMD (b : Block) : (s.setRK b).CMD = s.CMD := rfl
@[simp] theorem State.setRK_status (b : Block) : (s.setRK b).status = s.status := rfl
@[simp] theorem State.setRK_pending (b : Block) : (s.setRK b).pending = s.pending := rfl
@[simp] theorem State.setRK_wait (b : Block) : (s.setRK b).wait = s.wait := rfl
@[simp] theorem State.setRK_draws (b : Block) : (s.setRK b).draws = s.draws := rfl
@[simp] theorem State.setRK_queue (b : Block) : (s.setRK b).queue = s.queue := rfl
@[simp] theorem State.setRK_resp (b : Block) : (s.setRK b).resp = s.resp := rfl
@[simp] theorem State.setRK_recorded (b : Block) : (s.setRK b).recorded = s.recorded := rfl

@[simp] theorem State.setBY_ST (b : Byte) : (s.setBY b).ST = s.ST := rfl
@[simp] theorem State.setBY_RK (b : Byte) : (s.setBY b).RK = s.RK := rfl
@[simp] theorem State.setBY_CK (b : Byte) : (s.setBY b).CK = s.CK := rfl
@[simp] theorem State.setBY_BA (b : Byte) : (s.setBY b).BA = s.BA := rfl
@[simp] theorem State.setBY_BB (b : Byte) : (s.setBY b).BB = s.BB := rfl
@[simp] theorem State.setBY_BY (b : Byte) : (s.setBY b).BY = .value b := rfl
@[simp] theorem State.setBY_W (b : Byte) : (s.setBY b).W = s.W := rfl
@[simp] theorem State.setBY_CMD (b : Byte) : (s.setBY b).CMD = s.CMD := rfl
@[simp] theorem State.setBY_status (b : Byte) : (s.setBY b).status = s.status := rfl
@[simp] theorem State.setBY_pending (b : Byte) : (s.setBY b).pending = s.pending := rfl
@[simp] theorem State.setBY_wait (b : Byte) : (s.setBY b).wait = s.wait := rfl
@[simp] theorem State.setBY_draws (b : Byte) : (s.setBY b).draws = s.draws := rfl
@[simp] theorem State.setBY_queue (b : Byte) : (s.setBY b).queue = s.queue := rfl
@[simp] theorem State.setBY_resp (b : Byte) : (s.setBY b).resp = s.resp := rfl
@[simp] theorem State.setBY_recorded (b : Byte) : (s.setBY b).recorded = s.recorded := rfl

@[simp] theorem State.setSchedule_ST (nk : Nat) (ws : List KWord) : (s.setSchedule nk ws).ST = s.ST := rfl
@[simp] theorem State.setSchedule_RK (nk : Nat) (ws : List KWord) : (s.setSchedule nk ws).RK = s.RK := rfl
@[simp] theorem State.setSchedule_CK (nk : Nat) (ws : List KWord) : (s.setSchedule nk ws).CK = s.CK := rfl
@[simp] theorem State.setSchedule_BA (nk : Nat) (ws : List KWord) : (s.setSchedule nk ws).BA = s.BA := rfl
@[simp] theorem State.setSchedule_BB (nk : Nat) (ws : List KWord) : (s.setSchedule nk ws).BB = s.BB := rfl
@[simp] theorem State.setSchedule_BY (nk : Nat) (ws : List KWord) : (s.setSchedule nk ws).BY = s.BY := rfl
@[simp] theorem State.setSchedule_W (nk : Nat) (ws : List KWord) : (s.setSchedule nk ws).W = scheduleMemory s.draws ws := rfl
@[simp] theorem State.setSchedule_CMD (nk : Nat) (ws : List KWord) : (s.setSchedule nk ws).CMD = s.CMD := rfl
@[simp] theorem State.setSchedule_status (nk : Nat) (ws : List KWord) : (s.setSchedule nk ws).status = { s.status with ksv := true, ksNk := BitVec.ofNat 4 nk, ksNr := BitVec.ofNat 4 (nk + 6) } := rfl
@[simp] theorem State.setSchedule_pending (nk : Nat) (ws : List KWord) : (s.setSchedule nk ws).pending = s.pending := rfl
@[simp] theorem State.setSchedule_wait (nk : Nat) (ws : List KWord) : (s.setSchedule nk ws).wait = s.wait := rfl
@[simp] theorem State.setSchedule_draws (nk : Nat) (ws : List KWord) : (s.setSchedule nk ws).draws = s.draws + 1 := rfl
@[simp] theorem State.setSchedule_queue (nk : Nat) (ws : List KWord) : (s.setSchedule nk ws).queue = s.queue := rfl
@[simp] theorem State.setSchedule_resp (nk : Nat) (ws : List KWord) : (s.setSchedule nk ws).resp = s.resp := rfl
@[simp] theorem State.setSchedule_recorded (nk : Nat) (ws : List KWord) : (s.setSchedule nk ws).recorded = s.recorded := rfl

@[simp] theorem State.recordUnless_ST (ok : Bool) (f : ModelFault) : (s.recordUnless ok f).ST = s.ST := rfl
@[simp] theorem State.recordUnless_RK (ok : Bool) (f : ModelFault) : (s.recordUnless ok f).RK = s.RK := rfl
@[simp] theorem State.recordUnless_CK (ok : Bool) (f : ModelFault) : (s.recordUnless ok f).CK = s.CK := rfl
@[simp] theorem State.recordUnless_BA (ok : Bool) (f : ModelFault) : (s.recordUnless ok f).BA = s.BA := rfl
@[simp] theorem State.recordUnless_BB (ok : Bool) (f : ModelFault) : (s.recordUnless ok f).BB = s.BB := rfl
@[simp] theorem State.recordUnless_BY (ok : Bool) (f : ModelFault) : (s.recordUnless ok f).BY = s.BY := rfl
@[simp] theorem State.recordUnless_W (ok : Bool) (f : ModelFault) : (s.recordUnless ok f).W = s.W := rfl
@[simp] theorem State.recordUnless_CMD (ok : Bool) (f : ModelFault) : (s.recordUnless ok f).CMD = s.CMD := rfl
@[simp] theorem State.recordUnless_status (ok : Bool) (f : ModelFault) : (s.recordUnless ok f).status = s.status := rfl
@[simp] theorem State.recordUnless_pending (ok : Bool) (f : ModelFault) : (s.recordUnless ok f).pending = s.pending := rfl
@[simp] theorem State.recordUnless_wait (ok : Bool) (f : ModelFault) : (s.recordUnless ok f).wait = s.wait := rfl
@[simp] theorem State.recordUnless_draws (ok : Bool) (f : ModelFault) : (s.recordUnless ok f).draws = s.draws := rfl
@[simp] theorem State.recordUnless_queue (ok : Bool) (f : ModelFault) : (s.recordUnless ok f).queue = s.queue := rfl
@[simp] theorem State.recordUnless_resp (ok : Bool) (f : ModelFault) : (s.recordUnless ok f).resp = s.resp := rfl
@[simp] theorem State.recordUnless_recorded (ok : Bool) (f : ModelFault) : (s.recordUnless ok f).recorded = if ok then s.recorded else s.recorded ++ [f] := rfl

@[simp] theorem State.readsOperands_ST (l : List RegByte) : (s.readsOperands l).ST = s.ST := rfl
@[simp] theorem State.readsOperands_RK (l : List RegByte) : (s.readsOperands l).RK = s.RK := rfl
@[simp] theorem State.readsOperands_CK (l : List RegByte) : (s.readsOperands l).CK = s.CK := rfl
@[simp] theorem State.readsOperands_BA (l : List RegByte) : (s.readsOperands l).BA = s.BA := rfl
@[simp] theorem State.readsOperands_BB (l : List RegByte) : (s.readsOperands l).BB = s.BB := rfl
@[simp] theorem State.readsOperands_BY (l : List RegByte) : (s.readsOperands l).BY = s.BY := rfl
@[simp] theorem State.readsOperands_W (l : List RegByte) : (s.readsOperands l).W = s.W := rfl
@[simp] theorem State.readsOperands_CMD (l : List RegByte) : (s.readsOperands l).CMD = s.CMD := rfl
@[simp] theorem State.readsOperands_status (l : List RegByte) : (s.readsOperands l).status = s.status := rfl
@[simp] theorem State.readsOperands_pending (l : List RegByte) : (s.readsOperands l).pending = s.pending := rfl
@[simp] theorem State.readsOperands_wait (l : List RegByte) : (s.readsOperands l).wait = s.wait := rfl
@[simp] theorem State.readsOperands_draws (l : List RegByte) : (s.readsOperands l).draws = s.draws := rfl
@[simp] theorem State.readsOperands_queue (l : List RegByte) : (s.readsOperands l).queue = s.queue := rfl
@[simp] theorem State.readsOperands_resp (l : List RegByte) : (s.readsOperands l).resp = s.resp := rfl
@[simp] theorem State.readsOperands_recorded (l : List RegByte) : (s.readsOperands l).recorded = if allHeld l then s.recorded else s.recorded ++ [.commandUsedBottom] := rfl

/-- Nothing is recorded where all is well. -/
@[simp] theorem State.recordUnless_true (f : ModelFault) : s.recordUnless true f = s := rfl

/-- Nothing is recorded where no operand byte is ⊥. -/
theorem State.readsOperands_held {l : List RegByte} (h : allHeld l = true) : s.readsOperands l = s := by
  simp [State.readsOperands, h]

@[simp] theorem State.respond_ST (r : Response) : (s.respond r).ST = s.ST := rfl
@[simp] theorem State.respond_RK (r : Response) : (s.respond r).RK = s.RK := rfl
@[simp] theorem State.respond_CK (r : Response) : (s.respond r).CK = s.CK := rfl
@[simp] theorem State.respond_BA (r : Response) : (s.respond r).BA = s.BA := rfl
@[simp] theorem State.respond_BB (r : Response) : (s.respond r).BB = s.BB := rfl
@[simp] theorem State.respond_BY (r : Response) : (s.respond r).BY = s.BY := rfl
@[simp] theorem State.respond_W (r : Response) : (s.respond r).W = s.W := rfl
@[simp] theorem State.respond_CMD (r : Response) : (s.respond r).CMD = s.CMD := rfl
@[simp] theorem State.respond_status (r : Response) : (s.respond r).status = s.status := rfl
@[simp] theorem State.respond_pending (r : Response) : (s.respond r).pending = s.pending := rfl
@[simp] theorem State.respond_wait (r : Response) : (s.respond r).wait = s.wait := rfl
@[simp] theorem State.respond_draws (r : Response) : (s.respond r).draws = s.draws := rfl
@[simp] theorem State.respond_queue (r : Response) : (s.respond r).queue = s.queue := rfl
@[simp] theorem State.respond_resp (r : Response) : (s.respond r).resp = r := rfl
@[simp] theorem State.respond_recorded (r : Response) : (s.respond r).recorded = s.recorded := rfl

@[simp] theorem State.setQueue_ST (q : List HostAction) : (s.setQueue q).ST = s.ST := rfl
@[simp] theorem State.setQueue_RK (q : List HostAction) : (s.setQueue q).RK = s.RK := rfl
@[simp] theorem State.setQueue_CK (q : List HostAction) : (s.setQueue q).CK = s.CK := rfl
@[simp] theorem State.setQueue_BA (q : List HostAction) : (s.setQueue q).BA = s.BA := rfl
@[simp] theorem State.setQueue_BB (q : List HostAction) : (s.setQueue q).BB = s.BB := rfl
@[simp] theorem State.setQueue_BY (q : List HostAction) : (s.setQueue q).BY = s.BY := rfl
@[simp] theorem State.setQueue_W (q : List HostAction) : (s.setQueue q).W = s.W := rfl
@[simp] theorem State.setQueue_CMD (q : List HostAction) : (s.setQueue q).CMD = s.CMD := rfl
@[simp] theorem State.setQueue_status (q : List HostAction) : (s.setQueue q).status = s.status := rfl
@[simp] theorem State.setQueue_pending (q : List HostAction) : (s.setQueue q).pending = s.pending := rfl
@[simp] theorem State.setQueue_wait (q : List HostAction) : (s.setQueue q).wait = s.wait := rfl
@[simp] theorem State.setQueue_draws (q : List HostAction) : (s.setQueue q).draws = s.draws := rfl
@[simp] theorem State.setQueue_queue (q : List HostAction) : (s.setQueue q).queue = q := rfl
@[simp] theorem State.setQueue_resp (q : List HostAction) : (s.setQueue q).resp = s.resp := rfl
@[simp] theorem State.setQueue_recorded (q : List HostAction) : (s.setQueue q).recorded = s.recorded := rfl

@[simp] theorem State.setWait_ST (n : Nat) : (s.setWait n).ST = s.ST := rfl
@[simp] theorem State.setWait_RK (n : Nat) : (s.setWait n).RK = s.RK := rfl
@[simp] theorem State.setWait_CK (n : Nat) : (s.setWait n).CK = s.CK := rfl
@[simp] theorem State.setWait_BA (n : Nat) : (s.setWait n).BA = s.BA := rfl
@[simp] theorem State.setWait_BB (n : Nat) : (s.setWait n).BB = s.BB := rfl
@[simp] theorem State.setWait_BY (n : Nat) : (s.setWait n).BY = s.BY := rfl
@[simp] theorem State.setWait_W (n : Nat) : (s.setWait n).W = s.W := rfl
@[simp] theorem State.setWait_CMD (n : Nat) : (s.setWait n).CMD = s.CMD := rfl
@[simp] theorem State.setWait_status (n : Nat) : (s.setWait n).status = s.status := rfl
@[simp] theorem State.setWait_pending (n : Nat) : (s.setWait n).pending = s.pending := rfl
@[simp] theorem State.setWait_wait (n : Nat) : (s.setWait n).wait = n := rfl
@[simp] theorem State.setWait_draws (n : Nat) : (s.setWait n).draws = s.draws := rfl
@[simp] theorem State.setWait_queue (n : Nat) : (s.setWait n).queue = s.queue := rfl
@[simp] theorem State.setWait_resp (n : Nat) : (s.setWait n).resp = s.resp := rfl
@[simp] theorem State.setWait_recorded (n : Nat) : (s.setWait n).recorded = s.recorded := rfl

@[simp] theorem State.applyReset_ST : s.applyReset.ST = State.reset.ST := by simp only [State.applyReset]
@[simp] theorem State.applyReset_RK : s.applyReset.RK = State.reset.RK := by simp only [State.applyReset]
@[simp] theorem State.applyReset_CK : s.applyReset.CK = State.reset.CK := by simp only [State.applyReset]
@[simp] theorem State.applyReset_BA : s.applyReset.BA = State.reset.BA := by simp only [State.applyReset]
@[simp] theorem State.applyReset_BB : s.applyReset.BB = State.reset.BB := by simp only [State.applyReset]
@[simp] theorem State.applyReset_BY : s.applyReset.BY = State.reset.BY := by simp only [State.applyReset]
@[simp] theorem State.applyReset_W : s.applyReset.W = State.reset.W := by simp only [State.applyReset]
@[simp] theorem State.applyReset_CMD : s.applyReset.CMD = State.reset.CMD := by simp only [State.applyReset]
@[simp] theorem State.applyReset_status : s.applyReset.status = State.reset.status := by simp only [State.applyReset]
@[simp] theorem State.applyReset_pending : s.applyReset.pending = State.reset.pending := by simp only [State.applyReset]
@[simp] theorem State.applyReset_wait : s.applyReset.wait = State.reset.wait := by simp only [State.applyReset]
@[simp] theorem State.applyReset_draws : s.applyReset.draws = s.draws := by simp only [State.applyReset]
@[simp] theorem State.applyReset_queue : s.applyReset.queue = s.queue := by simp only [State.applyReset]
@[simp] theorem State.applyReset_resp : s.applyReset.resp = State.reset.resp := by simp only [State.applyReset]
@[simp] theorem State.applyReset_recorded : s.applyReset.recorded = s.recorded := by simp only [State.applyReset]

@[simp] theorem State.reset_status : State.reset.status = Status.reset := rfl
@[simp] theorem State.reset_pending : State.reset.pending = none := rfl
@[simp] theorem State.reset_wait : State.reset.wait = 0 := rfl

end Sys2Proof.Machine
end

