-- ==== Sys2Proof/Laws/Ops.lean ====
section
/-! SUPPORT. The register window: what a byte of it depends on, and what a write changes. -/

namespace Sys2Proof.Machine

/-- Where each byte of the window lives, as the table of R47 has it. -/
theorem locate_cases (a : Nat) :
    (∃ i : Fin 16, a = i.val ∧ locate a = .st i) ∨ (∃ i : Fin 16, a = 0x010 + i.val ∧ locate a = .rk i) ∨
      (∃ i : Fin 32, a = 0x020 + i.val ∧ locate a = .ck i) ∨ (a = 0x040 ∧ locate a = .ba) ∨
      (a = 0x041 ∧ locate a = .bb) ∨ (a = 0x042 ∧ locate a = .byResult) ∨
      (∃ j : Fin 4, a = 0x044 + j.val ∧ locate a = .cmd j) ∨ (∃ j : Fin 4, a = 0x048 + j.val ∧ locate a = .status j) ∨
      (∃ (i : Fin 60) (j : Fin 4), a = 0x050 + 4 * i.val + j.val ∧ locate a = .w i j) ∨
      ((a = 0x043 ∨ (0x04C ≤ a ∧ a < 0x050) ∨ 0x140 ≤ a) ∧ locate a = .reserved) := by
  unfold locate
  by_cases h0 : a < 0x010
  · exact .inl ⟨⟨a, h0⟩, rfl, dif_pos h0⟩
  rw [dif_neg h0]
  by_cases h1 : a < 0x020
  · exact .inr (.inl ⟨⟨a - 0x010, by omega⟩, by simp only; omega, dif_pos h1⟩)
  rw [dif_neg h1]
  by_cases h2 : a < 0x040
  · exact .inr (.inr (.inl ⟨⟨a - 0x020, by omega⟩, by simp only; omega, dif_pos h2⟩))
  rw [dif_neg h2]
  by_cases h3 : a = 0x040
  · exact .inr (.inr (.inr (.inl ⟨h3, if_pos h3⟩)))
  rw [if_neg h3]
  by_cases h4 : a = 0x041
  · exact .inr (.inr (.inr (.inr (.inl ⟨h4, if_pos h4⟩))))
  rw [if_neg h4]
  by_cases h5 : a = 0x042
  · exact .inr (.inr (.inr (.inr (.inr (.inl ⟨h5, if_pos h5⟩)))))
  rw [if_neg h5]
  by_cases h6 : a = 0x043
  · exact .inr (.inr (.inr (.inr (.inr (.inr (.inr (.inr (.inr ⟨.inl h6, if_pos h6⟩))))))))
  rw [if_neg h6]
  by_cases h7 : a < 0x048
  · exact .inr (.inr (.inr (.inr (.inr (.inr (.inl ⟨⟨a % 4, by omega⟩, by simp only; omega, dif_pos h7⟩))))))
  rw [dif_neg h7]
  by_cases h8 : a < 0x04C
  · exact .inr (.inr (.inr (.inr (.inr (.inr (.inr (.inl ⟨⟨a % 4, by omega⟩, by simp only; omega, dif_pos h8⟩)))))))
  rw [dif_neg h8]
  by_cases h9 : a < 0x050
  · exact .inr (.inr (.inr (.inr (.inr (.inr (.inr (.inr (.inr ⟨.inr (.inl ⟨by omega, h9⟩), if_pos h9⟩))))))))
  rw [if_neg h9]
  by_cases h10 : a < 0x140
  · exact .inr (.inr (.inr (.inr (.inr (.inr (.inr (.inr (.inl
      ⟨⟨(a - 0x050) / 4, by omega⟩, ⟨a % 4, by omega⟩, by simp only; omega, dif_pos h10⟩))))))))
  · exact .inr (.inr (.inr (.inr (.inr (.inr (.inr (.inr (.inr ⟨.inr (.inr (by omega)), dif_neg h10⟩))))))))

/-- A byte of the window depends only on the register that the map puts there (R47). -/
theorem windowByte_congr {s t : State} {a : Nat}
    (hST : a < 0x010 → t.ST = s.ST) (hRK : 0x010 ≤ a → a < 0x020 → t.RK = s.RK)
    (hCK : 0x020 ≤ a → a < 0x040 → t.CK = s.CK) (hBA : a = 0x040 → t.BA = s.BA) (hBB : a = 0x041 → t.BB = s.BB)
    (hBY : a = 0x042 → t.BY = s.BY) (hCMD : 0x044 ≤ a → a < 0x048 → t.CMD = s.CMD)
    (hstatus : 0x048 ≤ a → a < 0x04C → t.status = s.status) (hW : 0x050 ≤ a → a < 0x140 → t.W = s.W) :
    windowByte t a = windowByte s a := by
  unfold windowByte
  rcases locate_cases a with ⟨i, h, e⟩ | ⟨i, h, e⟩ | ⟨i, h, e⟩ | ⟨h, e⟩ | ⟨h, e⟩ | ⟨h, e⟩ | ⟨j, h, e⟩ | ⟨j, h, e⟩ |
    ⟨i, j, h, e⟩ | ⟨-, e⟩ <;> rw [e] <;> simp only [readLoc]
  · rw [hST (by omega)]
  · rw [hRK (by omega) (by omega)]
  · rw [hCK (by omega) (by omega)]
  · rw [hBA h]
  · rw [hBB h]
  · rw [hBY h]
  · rw [hCMD (by omega) (by omega)]
  · rw [hstatus (by omega) (by omega)]
  · rw [hW (by omega) (by omega)]

/-- A read of four bytes that hold values answers their little-endian word (R42), and none of them is ⊥ (R49). -/
theorem readWord_held {s : State} {off : Nat} {b0 b1 b2 b3 : Byte} (h0 : windowByte s off = .value b0)
    (h1 : windowByte s (off + 1) = .value b1) (h2 : windowByte s (off + 2) = .value b2)
    (h3 : windowByte s (off + 3) = .value b3) : readWord s off = wordOf b0 b1 b2 b3 ∧ wordHeld s off = true := by
  simp [readWord, wordHeld, h0, h1, h2, h3, allHeld, RegByte.pattern, RegByte.held]

/-- A word holds a ⊥ byte exactly when one of its four bytes is ⊥ (R49). -/
theorem wordHeld_eq_false {s : State} {off : Nat} :
    wordHeld s off = false ↔ (windowByte s off).held = false ∨ (windowByte s (off + 1)).held = false ∨
      (windowByte s (off + 2)).held = false ∨ (windowByte s (off + 3)).held = false := by
  simp [wordHeld, allHeld_eq_false]

/-- The host's write of a byte that is not among the operand bytes does nothing (R36, R47, R48). -/
theorem writeLoc_readOnly (s : State) (b : Byte) {a : Nat} (h : 0x042 ≤ a) : writeLoc s b (locate a) = s := by
  rcases locate_cases a with ⟨i, g, e⟩ | ⟨i, g, e⟩ | ⟨i, g, e⟩ | ⟨g, e⟩ | ⟨g, e⟩ | ⟨g, e⟩ | ⟨j, g, e⟩ | ⟨j, g, e⟩ |
    ⟨i, j, g, e⟩ | ⟨-, e⟩
  iterate 5 omega
  all_goals rw [e, writeLoc]

/-- An operand byte takes the byte the host writes (R36, R47). -/
theorem windowByte_writeLoc_same (s : State) (b : Byte) {a : Nat} (h : a < 0x042) :
    windowByte (writeLoc s b (locate a)) a = .value b := by
  unfold windowByte
  rcases locate_cases a with ⟨i, g, e⟩ | ⟨i, g, e⟩ | ⟨i, g, e⟩ | ⟨g, e⟩ | ⟨g, e⟩ | ⟨g, e⟩ | ⟨j, g, e⟩ | ⟨j, g, e⟩ |
    ⟨i, j, g, e⟩ | ⟨g, e⟩
  iterate 5 rw [e]; simp [readLoc, writeLoc]
  all_goals omega

/-- The host's write of one byte leaves every other byte of the window as it was. -/
theorem windowByte_writeLoc_other (s : State) (b : Byte) {a a' : Nat} (h : a' ≠ a) :
    windowByte (writeLoc s b (locate a)) a' = windowByte s a' := by
  unfold windowByte
  rcases locate_cases a with ⟨i, g, e⟩ | ⟨i, g, e⟩ | ⟨i, g, e⟩ | ⟨g, e⟩ | ⟨g, e⟩ | ⟨g, e⟩ | ⟨j, g, e⟩ | ⟨j, g, e⟩ |
    ⟨i, j, g, e⟩ | ⟨g, e⟩ <;> rw [e] <;> simp only [writeLoc]
  all_goals
    rcases locate_cases a' with ⟨i', g', e'⟩ | ⟨i', g', e'⟩ | ⟨i', g', e'⟩ | ⟨g', e'⟩ | ⟨g', e'⟩ | ⟨g', e'⟩ |
      ⟨j', g', e'⟩ | ⟨j', g', e'⟩ | ⟨i', j', g', e'⟩ | ⟨g', e'⟩ <;> rw [e'] <;> simp only [readLoc]
  all_goals first
    | omega
    | (simp only [Fin.getElem_fin, Vector.getElem_set]; rw [if_neg (by omega)])

/-- One byte of a word write touches only that byte of the window. -/
theorem windowByte_writeByte (s : State) (off : Nat) (v : Word) (j a : Nat) (h : off + j < 0x042) :
    windowByte (writeByte s off v j) a = if a = off + j then .value (byteOf v j) else windowByte s a := by
  unfold writeByte
  split
  · next e => subst e; exact windowByte_writeLoc_same s _ h
  · next e => exact windowByte_writeLoc_other s _ e

/-- A word write to operand registers: its four bytes take the word's, every other byte of the window stays (R42). -/
theorem windowByte_writeWord (s : State) (off : Nat) (v : Word) (a : Nat) (h : off + 3 < 0x042) :
    windowByte (writeWord s off v) a =
      if a = off then .value (byteOf v 0) else if a = off + 1 then .value (byteOf v 1)
      else if a = off + 2 then .value (byteOf v 2) else if a = off + 3 then .value (byteOf v 3) else windowByte s a := by
  unfold writeWord
  rw [windowByte_writeByte _ _ _ _ _ (by omega), windowByte_writeByte _ _ _ _ _ (by omega),
    windowByte_writeByte _ _ _ _ _ (by omega), windowByte_writeByte _ _ _ _ _ (by omega)]
  split_ifs <;> first | rfl | omega

/-- Everything a byte write of the host can do: it leaves all but ST, RK, CK, BA and BB as it was (R36). -/
theorem writeLoc_frame (s : State) (b : Byte) (l : Loc) :
    (writeLoc s b l).BY = s.BY ∧ (writeLoc s b l).W = s.W ∧ (writeLoc s b l).CMD = s.CMD ∧
      (writeLoc s b l).status = s.status ∧ (writeLoc s b l).pending = s.pending ∧ (writeLoc s b l).wait = s.wait ∧
      (writeLoc s b l).draws = s.draws ∧ (writeLoc s b l).queue = s.queue ∧ (writeLoc s b l).resp = s.resp ∧
      (writeLoc s b l).recorded = s.recorded := by
  cases l <;> simp [writeLoc]

/-- Everything a word write of the host can do: it leaves all but ST, RK, CK, BA and BB as it was (R36). -/
theorem writeWord_frame (s : State) (off : Nat) (v : Word) :
    (writeWord s off v).BY = s.BY ∧ (writeWord s off v).W = s.W ∧ (writeWord s off v).CMD = s.CMD ∧
      (writeWord s off v).status = s.status ∧ (writeWord s off v).pending = s.pending ∧
      (writeWord s off v).wait = s.wait ∧ (writeWord s off v).draws = s.draws ∧
      (writeWord s off v).queue = s.queue ∧ (writeWord s off v).resp = s.resp ∧
      (writeWord s off v).recorded = s.recorded := by
  simp [writeWord, writeByte, writeLoc_frame]

@[simp] theorem writeWord_BY (s : State) (off : Nat) (v : Word) : (writeWord s off v).BY = s.BY := by simp [writeWord_frame]
@[simp] theorem writeWord_W (s : State) (off : Nat) (v : Word) : (writeWord s off v).W = s.W := by simp [writeWord_frame]
@[simp] theorem writeWord_CMD (s : State) (off : Nat) (v : Word) : (writeWord s off v).CMD = s.CMD := by simp [writeWord_frame]
@[simp] theorem writeWord_status (s : State) (off : Nat) (v : Word) : (writeWord s off v).status = s.status := by simp [writeWord_frame]
@[simp] theorem writeWord_pending (s : State) (off : Nat) (v : Word) : (writeWord s off v).pending = s.pending := by simp [writeWord_frame]
@[simp] theorem writeWord_wait (s : State) (off : Nat) (v : Word) : (writeWord s off v).wait = s.wait := by simp [writeWord_frame]
@[simp] theorem writeWord_draws (s : State) (off : Nat) (v : Word) : (writeWord s off v).draws = s.draws := by simp [writeWord_frame]
@[simp] theorem writeWord_queue (s : State) (off : Nat) (v : Word) : (writeWord s off v).queue = s.queue := by simp [writeWord_frame]
@[simp] theorem writeWord_resp (s : State) (off : Nat) (v : Word) : (writeWord s off v).resp = s.resp := by simp [writeWord_frame]
@[simp] theorem writeWord_recorded (s : State) (off : Nat) (v : Word) : (writeWord s off v).recorded = s.recorded := by simp [writeWord_frame]

/-- A word write to a read-only or reserved offset does nothing (R48). -/
theorem writeWord_readOnly (s : State) (v : Word) {off : Nat} (h : 0x042 ≤ off) : writeWord s off v = s := by
  simp only [writeWord, writeByte]
  rw [writeLoc_readOnly s _ (a := off + 0) (by omega), writeLoc_readOnly s _ (a := off + 1) (by omega),
    writeLoc_readOnly s _ (a := off + 2) (by omega), writeLoc_readOnly s _ (a := off + 3) (by omega)]

end Sys2Proof.Machine
end

