-- ==== Sys2Proof/Laws/Commands.lean ====
section
/-! SUPPORT. What a command can do, said once: its check, and the effect of its success path. -/

namespace Sys2Proof.Machine

open Sys2Proof.Safety

/-- The register writes of a command's success path, ERR and the record left out (R35). -/
def commandWrites (i : Instr) (s : State) : State :=
  match i with
  | .gfmul => s.setBY (gfMultiply s.BA.pattern s.BB.pattern)
  | .sbox => s.setBY (subByte s.BA.pattern)
  | .subbytes _ => s.setST (subBytes (readST s))
  | .shiftrows _ => s.setST (shiftRows (readST s))
  | .mixcolumns _ => s.setST (mixColumns (readST s))
  | .addroundkey _ _ => s.setST (addRoundKey (readST s) (readRK s))
  | .expandkey klen => s.setSchedule (klen / 4) (expandKey (klen / 4) (readKey s klen))
  | .loadrk rnd => s.setRK (readRound s rnd)

/-- A command's success path, ERR left out: its writes, and the model fault recorded if an operand byte is ⊥ (R33, R35). -/
def commandEffect (i : Instr) (s : State) : State := (commandWrites i s).readsOperands (operandBytes i s)

/-- The state a command leaves (R171, R172, R173): the first failing check reported in ERR, or the success path with ERR 0. -/
def commandResult (i : Instr) (s : State) : State :=
  match check i s.status with
  | some e => s.setErr e.code
  | none => (commandEffect i s).setErr 0

/-- Every command answers a next state, in every state. -/
theorem exec_eq (i : Instr) (s : State) : exec i s = .next (commandResult i s) := by
  cases i with
  | gfmul => rfl
  | sbox => rfl
  | subbytes n => simp only [exec, execSubbytes, commandResult, check]; split <;> rfl
  | shiftrows n => simp only [exec, execShiftrows, commandResult, check]; split <;> rfl
  | mixcolumns n => simp only [exec, execMixcolumns, commandResult, check]; split <;> rfl
  | addroundkey n k =>
    simp only [exec, execAddroundkey, commandResult, check]
    by_cases hn : n = 16 <;> by_cases hk : k = 16 <;> simp only [hn, hk, if_true, if_false, and_self, and_false, false_and] <;> rfl
  | expandkey n => simp only [exec, execExpandkey, commandResult, check]; split <;> rfl
  | loadrk r => simp only [exec, execLoadrk, commandResult, check]; split <;> rfl

/-- If a command answers a next state, it failed a check and wrote only ERR, or it ran its success path. -/
theorem exec_next {i : Instr} {s t : State} (h : exec i s = .next t) :
    (∃ e, check i s.status = some e ∧ t = s.setErr e.code) ∨
      (check i s.status = none ∧ t = (commandEffect i s).setErr 0) := by
  rw [exec_eq, commandResult] at h
  split at h
  · next e he => cases h; exact .inl ⟨e, he, rfl⟩
  · next hc => cases h; exact .inr ⟨hc, rfl⟩

/-- A success path whose operand bytes all hold values records nothing. -/
theorem commandEffect_held {i : Instr} {s : State} (h : operandsHeld i s = true) : commandEffect i s = commandWrites i s :=
  State.readsOperands_held _ h

/-- What a command's writes leave as it was, for every command (R35). -/
theorem commandWrites_frame (i : Instr) (s : State) :
    (commandWrites i s).CK = s.CK ∧ (commandWrites i s).BA = s.BA ∧ (commandWrites i s).BB = s.BB ∧
      (commandWrites i s).CMD = s.CMD ∧ (commandWrites i s).status.busy = s.status.busy ∧
      (commandWrites i s).pending = s.pending ∧ (commandWrites i s).wait = s.wait ∧ (commandWrites i s).queue = s.queue ∧
      (commandWrites i s).resp = s.resp ∧ (commandWrites i s).recorded = s.recorded := by
  cases i <;> exact ⟨rfl, rfl, rfl, rfl, rfl, rfl, rfl, rfl, rfl, rfl⟩

/-- What a command's success path leaves as it was, and what it records (R33, R35). -/
theorem commandEffect_frame (i : Instr) (s : State) :
    (commandEffect i s).CK = s.CK ∧ (commandEffect i s).BA = s.BA ∧ (commandEffect i s).BB = s.BB ∧
      (commandEffect i s).CMD = s.CMD ∧ (commandEffect i s).status.busy = s.status.busy ∧
      (commandEffect i s).pending = s.pending ∧ (commandEffect i s).wait = s.wait ∧ (commandEffect i s).queue = s.queue ∧
      (commandEffect i s).resp = s.resp ∧
      (commandEffect i s).recorded = if operandsHeld i s then s.recorded else s.recorded ++ [.commandUsedBottom] := by
  obtain ⟨h1, h2, h3, h4, h5, h6, h7, h8, h9, h10⟩ := commandWrites_frame i s
  refine ⟨h1, h2, h3, h4, h5, h6, h7, h8, h9, ?_⟩
  rw [commandEffect, State.readsOperands_recorded, h10]; rfl

/-- The core's step of a legal command runs it and completes (R195). -/
theorem coreStep_command {cmd : Word} {i : Instr} (s : State) (h : decode cmd = .command i) :
    coreStep cmd s = .next (commandResult i s).complete := by
  simp only [coreStep, runCommand, h, exec_eq]

/-- The core's step of an illegal word writes ERR 3 and completes (R68, R195). -/
theorem coreStep_illegal {cmd : Word} {why : Illegal} (s : State) (h : decode cmd = .illegal why) :
    coreStep cmd s = .next (s.setErr 3).complete := by
  simp only [coreStep, runCommand, h]; rfl

/-- Everything the core's step can do (R195). -/
theorem coreStep_next {cmd : Word} {s t : State} (h : coreStep cmd s = .next t) :
    (∃ i, decode cmd = .command i ∧ t = (commandResult i s).complete) ∨
      (∃ why, decode cmd = .illegal why ∧ t = (s.setErr 3).complete) := by
  cases hd : decode cmd with
  | command i => rw [coreStep_command s hd] at h; cases h; exact .inl ⟨i, rfl, rfl⟩
  | illegal why => rw [coreStep_illegal s hd] at h; cases h; exact .inr ⟨why, rfl, rfl⟩

/-- The core's step always completes (R195, R199). -/
theorem coreStep_total (cmd : Word) (s : State) : ∃ t, coreStep cmd s = .next t := by
  cases hd : decode cmd with
  | command i => exact ⟨_, coreStep_command s hd⟩
  | illegal why => exact ⟨_, coreStep_illegal s hd⟩

end Sys2Proof.Machine
end

