-- ==== Sys2Proof/Laws/Step.lean ====
section
/-! SUPPORT. What one step can do, said once. -/

namespace Sys2Proof.Machine

/-- In a host bus cycle the latency of a pending command counts down to 0; an idle core has none. -/
def State.tick (s : State) : State := if s.pending.isSome then s.setWait (s.wait - 1) else s

/-- Everything the countdown can do: it changes only `wait`, and that only while a command is pending. -/
theorem tick_frame (s : State) :
    s.tick = s.setWait s.tick.wait ∧ (s.pending = none → s.tick.wait = s.wait) ∧
      (∀ n, s.wait = n + 1 → s.pending.isSome → s.tick.wait = n) := by
  unfold State.tick
  cases h : s.pending with
  | none => exact ⟨rfl, fun _ => rfl, by simp⟩
  | some c => exact ⟨rfl, by simp, fun n hn _ => by simp [hn]⟩

@[simp] theorem State.tick_ST (s : State) : s.tick.ST = s.ST := by rw [(tick_frame s).1]; rfl
@[simp] theorem State.tick_RK (s : State) : s.tick.RK = s.RK := by rw [(tick_frame s).1]; rfl
@[simp] theorem State.tick_CK (s : State) : s.tick.CK = s.CK := by rw [(tick_frame s).1]; rfl
@[simp] theorem State.tick_BA (s : State) : s.tick.BA = s.BA := by rw [(tick_frame s).1]; rfl
@[simp] theorem State.tick_BB (s : State) : s.tick.BB = s.BB := by rw [(tick_frame s).1]; rfl
@[simp] theorem State.tick_BY (s : State) : s.tick.BY = s.BY := by rw [(tick_frame s).1]; rfl
@[simp] theorem State.tick_W (s : State) : s.tick.W = s.W := by rw [(tick_frame s).1]; rfl
@[simp] theorem State.tick_CMD (s : State) : s.tick.CMD = s.CMD := by rw [(tick_frame s).1]; rfl
@[simp] theorem State.tick_status (s : State) : s.tick.status = s.status := by rw [(tick_frame s).1]; rfl
@[simp] theorem State.tick_pending (s : State) : s.tick.pending = s.pending := by rw [(tick_frame s).1]; rfl
@[simp] theorem State.tick_draws (s : State) : s.tick.draws = s.draws := by rw [(tick_frame s).1]; rfl
@[simp] theorem State.tick_queue (s : State) : s.tick.queue = s.queue := by rw [(tick_frame s).1]; rfl
@[simp] theorem State.tick_resp (s : State) : s.tick.resp = s.resp := by rw [(tick_frame s).1]; rfl
@[simp] theorem State.tick_recorded (s : State) : s.tick.recorded = s.recorded := by rw [(tick_frame s).1]; rfl

/-- A step with a command pending, its latency run out and no reset is the core's step (R195, R199). -/
theorem step_core {s : State} {cmd : Word} (hp : s.pending = some cmd) (hw : s.wait = 0) (hr : resetNow s.queue = false) :
    step s = coreStep cmd s := by
  simp [step, hp, hw, hr]

/-- Any other step is a bus cycle of the host (R199). -/
theorem step_host {s : State} (h : s.pending = none ∨ 0 < s.wait ∨ resetNow s.queue = true) : step s = hostCycle s.tick := by
  unfold step State.tick
  cases hp : s.pending with
  | none => simp
  | some cmd =>
    cases hw : s.wait with
    | zero =>
      have hr : resetNow s.queue = true := by simpa [hp, hw] using h
      have hs : s.setWait 0 = s := by rw [← hw]; rfl
      simp [hr, hs]
    | succ n => simp

/-- Which of the two a step is. -/
theorem step_turn (s : State) :
    (∃ cmd, s.pending = some cmd ∧ s.wait = 0 ∧ resetNow s.queue = false) ∨
      (s.pending = none ∨ 0 < s.wait ∨ resetNow s.queue = true) := by
  cases s.pending with
  | none => exact .inr (.inl rfl)
  | some cmd =>
    cases s.wait with
    | zero =>
      cases h : resetNow s.queue with
      | false => exact .inl ⟨cmd, rfl, rfl, rfl⟩
      | true => exact .inr (.inr (.inr rfl))
    | succ n => exact .inr (.inr (.inl (Nat.succ_pos n)))

/-- Everything a bus cycle of the host can do (R199). -/
theorem hostCycle_next {s t : State} (h : hostCycle s = .next t) :
    (s.queue = [] ∧ t = s.respond .quiet) ∨
      (∃ q, s.queue = .idle :: q ∧ t = (s.setQueue q).respond .quiet) ∨
      (∃ off q, s.queue = .access (.read off 4) :: q ∧ off.toNat % 4 = 0 ∧ (s.pending.isSome → busyReadable off) ∧
        t = ((s.setQueue q).recordUnless (wordHeld s off.toNat) .hostReadBottom).respond
          (.data (readWord s off.toNat))) ∨
      (∃ v q, s.queue = .access (.write cmdOffset 4 v) :: q ∧ s.pending = none ∧
        t = ((s.setQueue q).issue v).respond .written) ∨
      (∃ off v q, s.queue = .access (.write off 4 v) :: q ∧ s.pending = none ∧ off.toNat % 4 = 0 ∧ off ≠ cmdOffset ∧
        t = (writeWord (s.setQueue q) off.toNat v).respond .written) ∨
      (∃ q, s.queue = .poll :: q ∧
        t = (s.setQueue (if s.status.busy then .poll :: q else q)).respond (.data (statusWord s.status))) ∨
      (∃ q, s.queue = .reset :: q ∧ t = (s.setQueue q).applyReset) := by
  unfold hostCycle at h
  cases hq : s.queue with
  | nil => rw [hq] at h; cases h; exact .inl ⟨rfl, rfl⟩
  | cons a q =>
    rw [hq] at h
    cases a with
    | idle => cases h; exact .inr (.inl ⟨q, rfl, rfl⟩)
    | poll => cases h; exact .inr (.inr (.inr (.inr (.inr (.inl ⟨q, rfl, rfl⟩)))))
    | reset => cases h; exact .inr (.inr (.inr (.inr (.inr (.inr ⟨q, rfl, rfl⟩)))))
    | resetDuring a => cases h
    | access a =>
      cases a with
      | read off bytes =>
        simp only [hostAction, hostAccess, hostRead] at h
        split at h
        · cases h
        · split at h
          · cases h
          · split at h
            · cases h
            · next hb hm hy =>
              cases h
              have hb' : bytes = 4 := not_not.mp hb
              subst hb'
              refine .inr (.inr (.inl ⟨off, q, rfl, not_not.mp hm, fun hp => ?_, rfl⟩))
              by_contra hn
              exact hy ⟨hp, hn⟩
      | write off bytes v =>
        simp only [hostAction, hostAccess, hostWrite] at h
        split at h
        · cases h
        · split at h
          · cases h
          · split at h
            · cases h
            · next hb hm hy =>
              have hb' : bytes = 4 := not_not.mp hb
              subst hb'
              have hp : s.pending = none := by simpa using hy
              split at h
              · next hc => cases h; subst hc; exact .inr (.inr (.inr (.inl ⟨v, q, rfl, hp, rfl⟩)))
              · next hc => cases h; exact .inr (.inr (.inr (.inr (.inl ⟨off, v, q, rfl, hp, not_not.mp hm, hc, rfl⟩))))

/-- A run goes on with the next state. -/
theorem run_next {s t : State} (k : Nat) (h : step s = .next t) :
    Sys2Proof.core.run (k + 1) s = Sys2Proof.core.run k t := by
  have h' : Sys2Proof.core.step s = .next t := h
  simp only [Host.Core.run, h']

/-- A run stops at a fault. -/
theorem run_fault {s : State} {f : Fault} (k : Nat) (h : step s = .fault f) : Sys2Proof.core.run (k + 1) s = .fault f := by
  have h' : Sys2Proof.core.step s = .fault f := h
  simp only [Host.Core.run, h']

/-- No step is refused. -/
theorem step_not_refused (s : State) (r : Refusal) : step s ≠ .refused r := by
  rcases step_turn s with ⟨cmd, hp, hw, hr⟩ | h
  · rw [step_core hp hw hr]
    obtain ⟨t, ht⟩ := coreStep_total cmd s
    simp [ht]
  · rw [step_host h]
    unfold hostCycle
    split
    · simp
    · next a rest _ =>
      cases a with
      | access acc =>
        cases acc with
        | read off bytes => simp only [hostAction, hostAccess, hostRead]; split_ifs <;> simp
        | write off bytes v => simp only [hostAction, hostAccess, hostWrite]; split_ifs <;> simp
      | poll => simp [hostAction, hostPoll]
      | idle => simp [hostAction]
      | reset => simp [hostAction]
      | resetDuring a => simp [hostAction]

/-- A step only adds to the record of model faults. -/
theorem step_recorded {s t : State} (h : step s = .next t) : ∃ l, t.recorded = s.recorded ++ l := by
  have nothing : ∀ u : State, u.recorded = s.recorded → ∃ l, u.recorded = s.recorded ++ l := fun u hu => ⟨[], by simp [hu]⟩
  rcases step_turn s with ⟨cmd, hp, hw, hr⟩ | h'
  · rw [step_core hp hw hr] at h
    rcases coreStep_next h with ⟨i, -, rfl⟩ | ⟨why, -, rfl⟩
    · rw [State.complete_recorded, commandResult]
      split
      · exact ⟨[], by simp⟩
      · rw [State.setErr_recorded, (commandEffect_frame i s).2.2.2.2.2.2.2.2.2]
        split
        · exact ⟨[], by simp⟩
        · exact ⟨_, rfl⟩
    · exact nothing _ rfl
  · rw [step_host h'] at h
    rcases hostCycle_next h with ⟨-, rfl⟩ | ⟨q, -, rfl⟩ | ⟨off, q, -, -, -, rfl⟩ | ⟨v, q, -, -, rfl⟩ |
      ⟨off, v, q, -, -, -, -, rfl⟩ | ⟨q, -, rfl⟩ | ⟨q, -, rfl⟩
    · exact nothing _ (by simp)
    · exact nothing _ (by simp)
    · rw [State.respond_recorded, State.recordUnless_recorded, State.setQueue_recorded, State.tick_recorded]
      split
      · exact ⟨[], by simp⟩
      · exact ⟨_, rfl⟩
    all_goals exact nothing _ (by simp)

/-- What a run of at least one step that answers a next state did first. -/
theorem run_succ_next {s u : State} {k : Nat} (h : Sys2Proof.core.run (k + 1) s = .next u) :
    ∃ t, step s = .next t ∧ Sys2Proof.core.run k t = .next u := by
  cases e : step s with
  | next t => exact ⟨t, rfl, by rw [← run_next k e]; exact h⟩
  | fault f => rw [run_fault k e] at h; cases h
  | refused r => exact absurd e (step_not_refused s r)

end Sys2Proof.Machine
end

