-- ==== Sys2Proof/Laws/Agreement.lean ====
section
/-! SUPPORT. Agreement up to the patterns in ⊥ bytes (`Safety.agrees`): each operation of the machine keeps it, and no operand of values tells agreeing states apart. -/

namespace Sys2Proof.Machine

open Sys2Proof.Safety

/-- Bytes that agree are both values or both ⊥. -/
theorem agreesByte_held {a b : RegByte} (h : agreesByte a b) : a.held = b.held := by
  rcases h with rfl | ⟨h1, h2⟩ <;> simp_all

/-- A value agrees only with itself. -/
theorem agreesByte_eq {a b : RegByte} (h : agreesByte a b) (hh : a.held = true) : a = b := by
  rcases h with rfl | ⟨h1, h2⟩ <;> simp_all

/-- Registers whose bytes agree both hold no ⊥ or both hold one. -/
theorem agreesByte_allHeld {n : Nat} {v w : Vector RegByte n} (h : ∀ i : Fin n, agreesByte v[i] w[i]) :
    allHeld v.toList = allHeld w.toList := by
  rw [Bool.eq_iff_iff, allHeld_toList, allHeld_toList]
  constructor
  · intro g i hi; have := agreesByte_held (h ⟨i, hi⟩); simp only [Fin.getElem_fin] at this; rw [← this]; exact g i hi
  · intro g i hi; have := agreesByte_held (h ⟨i, hi⟩); simp only [Fin.getElem_fin] at this; rw [this]; exact g i hi

/-- A register of values agrees only with itself. -/
theorem agreesByte_vector_eq {n : Nat} {v w : Vector RegByte n} (h : ∀ i : Fin n, agreesByte v[i] w[i]) (g : allHeld v.toList = true) :
    v = w := by
  ext1 i hi; exact agreesByte_eq (h ⟨i, hi⟩) (allHeld_toList.mp g i hi)

/-- The key bytes of agreeing cipher-key registers agree. -/
theorem agreesByte_keyBytes {v w : Vector RegByte 32} (h : ∀ i : Fin 32, agreesByte v[i] w[i]) (n : Nat) :
    List.Forall₂ agreesByte (v.toList.take n) (w.toList.take n) := by
  refine List.forall₂_take n ?_
  rw [List.forall₂_iff_get]
  refine ⟨by simp, fun i h1 h2 => ?_⟩
  simpa using h ⟨i, by simpa using h1⟩

/-- Lists whose bytes agree both hold no ⊥ or both hold one. -/
theorem agreesByte_list_held {l m : List RegByte} (h : List.Forall₂ agreesByte l m) : allHeld l = allHeld m := by
  induction h with
  | nil => rfl
  | cons h _ ih => simp only [allHeld, List.all_cons] at *; rw [agreesByte_held h, ih]

/-- A list of values agrees only with itself. -/
theorem agreesByte_list_eq {l m : List RegByte} (h : List.Forall₂ agreesByte l m) (g : allHeld l = true) : l = m := by
  induction h with
  | nil => rfl
  | cons h _ ih =>
    simp only [allHeld, List.all_cons, Bool.and_eq_true] at *; rw [agreesByte_eq h g.1, ih g.2]

/-- Schedule bytes of agreeing states agree. -/
theorem agrees_scheduleByte {s s' : State} (h : agrees s s') (i : Nat) (j : Fin 4) :
    agreesByte (scheduleByte s i j) (scheduleByte s' i j) := by
  obtain ⟨hST, hRK, hCK, hBA, hBB, hBY, hW, hC, hS, hP, hw, hd, hq, hr, hm⟩ := h
  unfold scheduleByte; split
  · exact hW ⟨i, by omega⟩ j
  · rw [hd]; exact .inl rfl

/-- The round-key operands of agreeing states agree. -/
theorem agrees_roundBytes {s s' : State} (h : agrees s s') (r : Nat) :
    ∀ i : Fin 16, agreesByte (roundBytes s r)[i] (roundBytes s' r)[i] := by
  intro i
  simp only [roundBytes, Fin.getElem_fin, tabulate_getElem]
  exact agrees_scheduleByte h _ _

/-- A command whose operand bytes hold values writes the same into agreeing states. -/
theorem agrees_commandWrites {i : Instr} {s s' : State} (h : agrees s s') (g : operandsHeld i s = true) :
    operandsHeld i s' = true ∧ agrees (commandWrites i s) (commandWrites i s') := by
  have h0 := h
  obtain ⟨hST, hRK, hCK, hBA, hBB, hBY, hW, hC, hS, hP, hw, hd, hq, hr, hm⟩ := h
  cases i <;> simp only [operandsHeld, operandBytes, allHeld_append, Bool.and_eq_true] at g ⊢
  case gfmul =>
    simp only [allHeld, List.all_cons, List.all_nil, Bool.and_true, Bool.and_eq_true] at g
    have e1 := agreesByte_eq hBA g.1; have e2 := agreesByte_eq hBB g.2
    refine ⟨by simp [allHeld, ← e1, ← e2, g], ?_⟩
    simp only [commandWrites, e1, e2]
    exact ⟨hST, hRK, hCK, .inl e1, .inl e2, .inl rfl, hW, hC, hS, hP, hw, hd, hq, hr, hm⟩
  case sbox =>
    simp only [allHeld, List.all_cons, List.all_nil, Bool.and_true] at g
    have e1 := agreesByte_eq hBA g
    refine ⟨by simp [allHeld, ← e1, g], ?_⟩
    simp only [commandWrites, e1]
    exact ⟨hST, hRK, hCK, .inl e1, hBB, .inl rfl, hW, hC, hS, hP, hw, hd, hq, hr, hm⟩
  case subbytes | shiftrows | mixcolumns =>
    have e := agreesByte_vector_eq hST g
    refine ⟨e ▸ g, ?_⟩
    simp only [commandWrites, readST, e]
    exact ⟨fun i => .inl rfl, hRK, hCK, hBA, hBB, hBY, hW, hC, hS, hP, hw, hd, hq, hr, hm⟩
  case addroundkey =>
    have e := agreesByte_vector_eq hST g.1
    have e' := agreesByte_vector_eq hRK g.2
    refine ⟨e ▸ e' ▸ g, ?_⟩
    simp only [commandWrites, readST, readRK, e, e']
    exact ⟨fun i => .inl rfl, hRK, hCK, hBA, hBB, hBY, hW, hC, hS, hP, hw, hd, hq, hr, hm⟩
  case expandkey n =>
    have e : keyBytes s n = keyBytes s' n := agreesByte_list_eq (agreesByte_keyBytes hCK n) g
    refine ⟨e ▸ g, ?_⟩
    simp only [commandWrites, readKey, e]
    refine ⟨hST, hRK, hCK, hBA, hBB, hBY, ?_, hC, ?_, hP, hw, ?_, hq, hr, hm⟩
    · simp only [State.setSchedule_W, hd]; exact fun i j => .inl rfl
    · simp [hS]
    · simp [hd]
  case loadrk r =>
    have e := agreesByte_vector_eq (agrees_roundBytes h0 r) g
    refine ⟨e ▸ g, ?_⟩
    simp only [commandWrites, readRound, e]
    exact ⟨hST, fun i => .inl rfl, hCK, hBA, hBB, hBY, hW, hC, hS, hP, hw, hd, hq, hr, hm⟩

/-- Agreeing states agree after a write of ERR. -/
theorem agrees_setErr {s s' : State} (h : agrees s s') (e : BitVec 3) : agrees (s.setErr e) (s'.setErr e) := by
  obtain ⟨hST, hRK, hCK, hBA, hBB, hBY, hW, hC, hS, hP, hw, hd, hq, hr, hm⟩ := h
  exact ⟨hST, hRK, hCK, hBA, hBB, hBY, hW, hC, by simp [hS], hP, hw, hd, hq, hr, hm⟩

/-- Agreeing states agree after completion. -/
theorem agrees_complete {s s' : State} (h : agrees s s') : agrees s.complete s'.complete := by
  obtain ⟨hST, hRK, hCK, hBA, hBB, hBY, hW, hC, hS, hP, hw, hd, hq, hr, hm⟩ := h
  exact ⟨hST, hRK, hCK, hBA, hBB, hBY, hW, hC, by simp [hS], rfl, rfl, hd, hq, hr, hm⟩

/-- Agreeing states agree with one queue. -/
theorem agrees_setQueue {s s' : State} (h : agrees s s') (q : List HostAction) : agrees (s.setQueue q) (s'.setQueue q) := by
  obtain ⟨hST, hRK, hCK, hBA, hBB, hBY, hW, hC, hS, hP, hw, hd, hq, hr, hm⟩ := h
  exact ⟨hST, hRK, hCK, hBA, hBB, hBY, hW, hC, hS, hP, hw, hd, rfl, hr, hm⟩

/-- Agreeing states agree with one bus answer. -/
theorem agrees_respond {s s' : State} (h : agrees s s') (r : Response) : agrees (s.respond r) (s'.respond r) := by
  obtain ⟨hST, hRK, hCK, hBA, hBB, hBY, hW, hC, hS, hP, hw, hd, hq, hr, hm⟩ := h
  exact ⟨hST, hRK, hCK, hBA, hBB, hBY, hW, hC, hS, hP, hw, hd, hq, rfl, hm⟩

/-- Agreeing states agree after one command is issued. -/
theorem agrees_issue {s s' : State} (h : agrees s s') (v : Word) : agrees (s.issue v) (s'.issue v) := by
  obtain ⟨hST, hRK, hCK, hBA, hBB, hBY, hW, hC, hS, hP, hw, hd, hq, hr, hm⟩ := h
  exact ⟨hST, hRK, hCK, hBA, hBB, hBY, hW, rfl, by simp [hS], rfl, by simp [hd], by simp [hd], hq, hr, hm⟩

/-- Agreeing states agree after the countdown. -/
theorem agrees_tick {s s' : State} (h : agrees s s') : agrees s.tick s'.tick := by
  obtain ⟨hST, hRK, hCK, hBA, hBB, hBY, hW, hC, hS, hP, hw, hd, hq, hr, hm⟩ := h
  refine ⟨by simpa using hST, by simpa using hRK, by simpa using hCK, by simpa using hBA, by simpa using hBB,
    by simpa using hBY, by simpa using hW, by simpa using hC, by simpa using hS, by simpa using hP, ?_,
    by simpa using hd, by simpa using hq, by simpa using hr, by simpa using hm⟩
  simp only [State.tick, hP]; split <;> simp [hw]

/-- Registers that agree do so after one byte is written. -/
theorem agreesByte_set {n : Nat} {v w : Vector RegByte n} (h : ∀ i : Fin n, agreesByte v[i] w[i]) (k : Fin n) (b : RegByte) :
    ∀ i : Fin n, agreesByte (v.set k b)[i] (w.set k b)[i] := by
  intro i
  simp only [Fin.getElem_fin, Vector.getElem_set]
  split
  · exact .inl rfl
  · exact h i

/-- Agreeing states agree after the host writes one byte. -/
theorem agrees_writeLoc {s s' : State} (h : agrees s s') (b : Byte) (l : Loc) : agrees (writeLoc s b l) (writeLoc s' b l) := by
  have h0 := h
  obtain ⟨hST, hRK, hCK, hBA, hBB, hBY, hW, hC, hS, hP, hw, hd, hq, hr, hm⟩ := h
  cases l <;> simp only [writeLoc] <;> first | exact h0 | skip
  · exact ⟨agreesByte_set hST _ _, hRK, hCK, hBA, hBB, hBY, hW, hC, hS, hP, hw, hd, hq, hr, hm⟩
  · exact ⟨hST, agreesByte_set hRK _ _, hCK, hBA, hBB, hBY, hW, hC, hS, hP, hw, hd, hq, hr, hm⟩
  · exact ⟨hST, hRK, agreesByte_set hCK _ _, hBA, hBB, hBY, hW, hC, hS, hP, hw, hd, hq, hr, hm⟩
  · exact ⟨hST, hRK, hCK, .inl rfl, hBB, hBY, hW, hC, hS, hP, hw, hd, hq, hr, hm⟩
  · exact ⟨hST, hRK, hCK, hBA, .inl rfl, hBY, hW, hC, hS, hP, hw, hd, hq, hr, hm⟩

/-- The bytes of the windows of agreeing states agree. -/
theorem agrees_windowByte {s s' : State} (h : agrees s s') (a : Nat) : agreesByte (windowByte s a) (windowByte s' a) := by
  obtain ⟨hST, hRK, hCK, hBA, hBB, hBY, hW, hC, hS, hP, hw, hd, hq, hr, hm⟩ := h
  unfold windowByte
  cases locate a <;> simp only [readLoc, hC, hS] <;> first | exact .inl rfl | skip
  · exact hST _
  · exact hRK _
  · exact hCK _
  · exact hBA
  · exact hBB
  · exact hBY
  · exact hW _ _

end Sys2Proof.Machine
end

