-- ==== Sys2Proof/Laws/KeySchedule.lean ====
section
/-! SUPPORT. What the key expansion and the schedule memory can do, said once (45_key_schedule.md R144, R146). -/

namespace Sys2Proof.Machine

/-- The expansion appends one word for each of its rounds of step 2. -/
@[simp] theorem expandFrom_length (nk n : Nat) (ws : List KWord) : (expandFrom nk n ws).length = ws.length + n := by
  induction n generalizing ws with
  | zero => rfl
  | succ n ih => rw [expandFrom, ih]; simp; omega

/-- It leaves the words that are there already. -/
theorem expandFrom_prefix (nk n : Nat) (ws : List KWord) {i : Nat} (h : i < ws.length) :
    (expandFrom nk n ws).getD i zeroWord = ws.getD i zeroWord := by
  induction n generalizing ws with
  | zero => rfl
  | succ n ih =>
    rw [expandFrom, ih _ (by simp; omega)]
    simp [List.getD, List.getElem?_append, h]

/-- Every word it appends obeys step 2 of R144. -/
theorem expandFrom_recurrence (nk n : Nat) (ws : List KWord) (h₀ : 0 < nk) (hk : nk ≤ ws.length) {i : Nat}
    (hi : ws.length ≤ i) (hi' : i < ws.length + n) :
    (expandFrom nk n ws).getD i zeroWord =
      xorWord ((expandFrom nk n ws).getD (i - nk) zeroWord)
        (scheduleTemp nk i ((expandFrom nk n ws).getD (i - 1) zeroWord)) := by
  induction n generalizing ws with
  | zero => omega
  | succ n ih =>
    rw [expandFrom]
    by_cases e : i = ws.length
    · subst e
      have hs : ∀ k, k < ws.length → (expandFrom nk n (ws ++ [nextWord nk ws])).getD k zeroWord = ws.getD k zeroWord := by
        intro k hk
        rw [expandFrom_prefix _ _ _ (by simp; omega)]
        simp [List.getD, List.getElem?_append, hk]
      rw [expandFrom_prefix _ _ _ (by simp), hs _ (by omega), hs _ (by omega)]
      simp [List.getD, nextWord]
    · exact ih _ (by simp; omega) (by simp; omega) (by simp; omega)

/-- A key of `4·nk` bytes expands to `4·(Nr + 1)` words (R144). -/
theorem expandKey_length (nk : Nat) (key : List Byte) : (expandKey nk key).length = nk + (4 * (nk + 7) - nk) := by
  simp [expandKey]

/-- What each word of the schedule memory holds. -/
theorem scheduleMemory_getElem (draw : Nat) (ws : List KWord) (i : Nat) (hi : i < 60) :
    (scheduleMemory draw ws)[i] = if i < ws.length then known (ws.getD i zeroWord)
      else tabulate fun j : Fin 4 => .bottom (Config.freeByte draw (4 * i + j.val)) := by
  simp only [scheduleMemory, tabulate_getElem]
  split
  · next w h =>
    obtain ⟨hl, rfl⟩ := List.getElem?_eq_some_iff.mp h
    simp [hl, List.getD]
  · next h => rw [List.getElem?_eq_none_iff] at h; rw [if_neg (by omega)]

/-- Above the words given, every byte of the schedule memory is ⊥. -/
theorem scheduleMemory_bottom (draw : Nat) (ws : List KWord) (i : Nat) (hi : i < 60) (j : Nat) (hj : j < 4)
    (h : ws.length ≤ i) : ((scheduleMemory draw ws)[i])[j].held = false := by
  rw [scheduleMemory_getElem, if_neg (by omega)]
  simp [RegByte.held]

/-- The only command whose success path reaches W, the schedule fields of STATUS or the draws is EXPANDKEY (R31, R35). -/
theorem commandEffect_schedule (i : Instr) (s : State) :
    ((commandEffect i s).status = s.status ∧ (commandEffect i s).W = s.W ∧ (commandEffect i s).draws = s.draws) ∨
      ∃ klen, i = .expandkey klen := by
  cases i
  case expandkey n => exact .inr ⟨n, rfl⟩
  all_goals exact .inl ⟨rfl, rfl, rfl⟩

end Sys2Proof.Machine
end

