-- ==== Sys2Proof/Laws/PerInstr.lean ====
section
/-! SUPPORT. Statements about every command as syntax, one lemma per constructor. -/

namespace Sys2Proof.Laws.OpcodeField

/-- The canonical word of a command has its opcode in `cmd[3:0]` and no reserved bit set (R60, R64, R65). -/
def Statement (i : Instr) : Prop := (opField (encode i)).toNat = opcode i ∧ reservedSet (encode i) = false

/-- The reserved bits of a packed word are 0, and its low four bits are the opcode. -/
theorem packFields_fields (op rnd slen klen : Nat) (h : op < 16) :
    (opField (packFields op rnd slen klen)).toNat = op ∧ reservedSet (packFields op rnd slen klen) = false := by
  have out : ∀ {w : Nat} (x : BitVec w) (k : Nat), w ≤ k → x.getLsbD k = false := fun x k hk => BitVec.getLsbD_of_ge x k hk
  refine ⟨?_, ?_⟩
  · have hop : opField (packFields op rnd slen klen) = BitVec.ofNat 4 op := by
      refine BitVec.eq_of_getLsbD_eq fun i hi => ?_
      simp [opField, packFields, hi, show i < 16 by omega, show i < 8 by omega, show i < 32 by omega, BitVec.getLsbD_eq_getElem]
    rw [hop]
    simp [Nat.mod_eq_of_lt h]
  · have h14 : (packFields op rnd slen klen).extractLsb' 14 2 = 0 := by
      refine BitVec.eq_of_getLsbD_eq fun i hi => ?_
      simp only [packFields, BitVec.getLsbD_extractLsb', BitVec.getLsbD_or, BitVec.getLsbD_shiftLeft, BitVec.getLsbD_setWidth]
      simp [out _ _ (show 6 ≤ 14 + i - 8 by omega), out _ _ (show 4 ≤ 14 + i - 4 by omega), out _ _ (show 4 ≤ 14 + i by omega),
        show 14 + i < 16 by omega]
    have h22 : (packFields op rnd slen klen).extractLsb' 22 10 = 0 := by
      refine BitVec.eq_of_getLsbD_eq fun i hi => ?_
      simp only [packFields, BitVec.getLsbD_extractLsb', BitVec.getLsbD_or, BitVec.getLsbD_shiftLeft, BitVec.getLsbD_setWidth]
      simp [out _ _ (show 6 ≤ 22 + i - 8 by omega), out _ _ (show 4 ≤ 22 + i - 4 by omega), out _ _ (show 4 ≤ 22 + i by omega),
        out _ _ (show 6 ≤ 22 + i - 16 by omega)]
    simp [reservedSet, h14, h22]

theorem gfmul : Statement .gfmul := packFields_fields _ _ _ _ (by simp [opcode])
theorem sbox : Statement .sbox := packFields_fields _ _ _ _ (by simp [opcode])
theorem subbytes (slen : Nat) : Statement (.subbytes slen) := packFields_fields _ _ _ _ (by simp [opcode])
theorem shiftrows (slen : Nat) : Statement (.shiftrows slen) := packFields_fields _ _ _ _ (by simp [opcode])
theorem mixcolumns (slen : Nat) : Statement (.mixcolumns slen) := packFields_fields _ _ _ _ (by simp [opcode])
theorem addroundkey (slen klen : Nat) : Statement (.addroundkey slen klen) := packFields_fields _ _ _ _ (by simp [opcode])
theorem expandkey (klen : Nat) : Statement (.expandkey klen) := packFields_fields _ _ _ _ (by simp [opcode])
theorem loadrk (rnd : Nat) : Statement (.loadrk rnd) := packFields_fields _ _ _ _ (by simp [opcode])

end Sys2Proof.Laws.OpcodeField
end

