-- ==== Sys2Proof/Tests/Slice0.lean ====
section
/-! SUPPORT. The model's own tests: expected values from spec/95_test_vectors.md (the ids V1, V77, ... name its rows) and from the rules cited, and one witness for the hypotheses of every obligation that has some. -/

namespace Sys2Proof.Tests

set_option Elab.async false

open Sys2Proof.Machine Sys2Proof.Safety

/- ---- Helpers: small states, and what a step answered ---- -/

/-- The state a step answered, if it did. -/
def after : Host.Outcome State Fault Refusal → Option State
  | .next t => some t
  | .fault _ => none
  | .refused _ => none

/-- The fault a step stopped with, if it did. -/
def stop : Host.Outcome State Fault Refusal → Option Fault
  | .next _ => none
  | .fault f => some f
  | .refused _ => none

/-- A step that answers a state with a decidable property does answer one. -/
theorem next_such {P : State → Prop} [DecidablePred P] {o : Host.Outcome State Fault Refusal}
    (h : (after o).any (fun t => decide (P t)) = true) : ∃ t, o = .next t ∧ P t := by
  cases o with
  | next t => exact ⟨t, rfl, by simpa [after] using h⟩
  | fault f => simp [after] at h
  | refused r => simp [after] at h

/-- A step that answers a state answers one. -/
theorem next_some {o : Host.Outcome State Fault Refusal} (h : (after o).isSome = true) : ∃ t, o = .next t := by
  cases o with
  | next t => exact ⟨t, rfl⟩
  | fault f => simp [after] at h
  | refused r => simp [after] at h

/-- The reset state with these byte operands. -/
def bytesState (a b : Byte) : State := { State.reset with BA := .value a, BB := .value b }

/-- The reset state with this block and this round key. -/
def blockState (b k : Block) : State := { State.reset with ST := known b, RK := known k }

/-- The reset state with these bytes at the start of CK, the rest of CK still ⊥. -/
def keyState (key : List Byte) : State := { State.reset with CK := tabulate fun i =>
  match key[i.val]? with
  | some b => .value b
  | none => .bottom 0 }

/-- The all-zero 128-bit cipher key. -/
def zeroKey : List Byte := List.replicate 16 0

/-- The state after EXPANDKEY of the all-zero 128-bit key (V50). -/
def scheduleState : State := ((keyState zeroKey).setSchedule 4 (expandKey 4 zeroKey)).succeed

/-- An idle core whose host does this next. -/
def idleState (q : List HostAction) : State := { State.reset with queue := q }

/-- A state with this command pending, `n` bus cycles to wait, and a host that does this next. -/
def busyState (s : State) (cmd : Word) (n : Nat) (q : List HostAction) : State := (s.holdCommand cmd n).setQueue q

/-- The standard test input of the source, `00112233445566778899aabbccddeeff`. -/
def standardInput : Block :=
  #v[0x00, 0x11, 0x22, 0x33, 0x44, 0x55, 0x66, 0x77, 0x88, 0x99, 0xaa, 0xbb, 0xcc, 0xdd, 0xee, 0xff]

/-- Sixteen zero bytes. -/
def zeroBlock : Block := #v[0, 0, 0, 0, 0, 0, 0, 0, 0, 0, 0, 0, 0, 0, 0, 0]

/- ---- WellFormed: each check refuses an ill-formed term ---- -/

/-- A six-bit SLEN holds no 64 (R63). -/
theorem test_wf_refuses_subbytes : (Instr.subbytes 64).wf = false := by decide
theorem test_wf_refuses_shiftrows : (Instr.shiftrows 64).wf = false := by decide
theorem test_wf_refuses_mixcolumns : (Instr.mixcolumns 64).wf = false := by decide
theorem test_wf_refuses_addroundkey_slen : (Instr.addroundkey 64 16).wf = false := by decide
theorem test_wf_refuses_addroundkey_klen : (Instr.addroundkey 16 64).wf = false := by decide
/-- A six-bit KLEN holds no 64 (R63). -/
theorem test_wf_refuses_expandkey : (Instr.expandkey 64).wf = false := by decide
/-- A four-bit RND holds no 16 (R62). -/
theorem test_wf_refuses_loadrk : (Instr.loadrk 16).wf = false := by decide
/-- The largest value of every field is well formed, and so are the commands without operands. -/
theorem test_wf_accepts_field_limits :
    Instr.gfmul.wf && Instr.sbox.wf && (Instr.subbytes 63).wf && (Instr.shiftrows 63).wf && (Instr.mixcolumns 63).wf &&
      (Instr.addroundkey 63 63).wf && (Instr.expandkey 63).wf && (Instr.loadrk 15).wf = true := by decide

/- ---- Decode: words written out from R60 `0000000000 KKKKKK 00 SSSSSS RRRR OOOO` ---- -/

/-- V76: `0000000000 000000 00 000000 0000 0001`. -/
theorem test_decode_gfmul : decode 0b00000000000000000000000000000001#32 = .command .gfmul := by decide
/-- V77: RND, SLEN and KLEN all ones and ignored. -/
theorem test_decode_gfmul_ignores_fields : decode 0x003F3FF1#32 = .command .gfmul := by decide
/-- `0000000000 000000 00 000000 0000 0010`. -/
theorem test_decode_sbox : decode 0b00000000000000000000000000000010#32 = .command .sbox := by decide
/-- V15: `0000000000 000000 00 001111 0000 0011` is SUBBYTES slen=15. -/
theorem test_decode_subbytes : decode 0b00000000000000000000111100000011#32 = .command (.subbytes 15) := by decide
/-- `0000000000 000000 00 010000 0000 0100`, slen=16 (R67). -/
theorem test_decode_shiftrows : decode 0b00000000000000000001000000000100#32 = .command (.shiftrows 16) := by decide
/-- V33: `0000000000 000000 00 100000 0000 0101` is MIXCOLUMNS slen=32. -/
theorem test_decode_mixcolumns : decode 0b00000000000000000010000000000101#32 = .command (.mixcolumns 32) := by decide
/-- V46: `0000000000 010000 00 001111 0000 0110` is ADDROUNDKEY slen=15, klen=16: the two lengths are not swapped. -/
theorem test_decode_addroundkey :
    decode 0b00000000000100000000111100000110#32 = .command (.addroundkey 15 16) := by decide
/-- V5E5: `0000000000 010100 00 000000 0000 0111` is EXPANDKEY klen=20. -/
theorem test_decode_expandkey : decode 0b00000000000101000000000000000111#32 = .command (.expandkey 20) := by decide
/-- V82: `0000000000 000000 00 010000 0000 1000` is LOADRK 0, SLEN ignored. -/
theorem test_decode_loadrk_ignores_slen : decode 0b00000000000000000001000000001000#32 = .command (.loadrk 0) := by
  decide
/-- V5E2: `0000000000 000000 00 000000 1010 1000` is LOADRK 10. -/
theorem test_decode_loadrk : decode 0b00000000000000000000000010101000#32 = .command (.loadrk 10) := by decide
/-- V70, V71, V72: opcodes 0, 9 and 15. -/
theorem test_decode_reserved_opcodes :
    decode 0x00000000#32 = .illegal (.reservedOpcode 0) ∧ decode 0x00000009#32 = .illegal (.reservedOpcode 9) ∧
      decode 0x0000000F#32 = .illegal (.reservedOpcode 15) := by decide
/-- V73, V74, V75, V80: reserved bits 14, 22 and 31, which come before the opcode and the lengths. -/
theorem test_decode_reserved_bits :
    decode 0x00004001#32 = .illegal .reservedBits ∧ decode 0x00400001#32 = .illegal .reservedBits ∧
      decode 0x80000001#32 = .illegal .reservedBits ∧ decode 0x00004003#32 = .illegal .reservedBits := by decide
/-- Bytes in bus order (R42): the low byte first, and the fifth byte left over. -/
theorem test_decode_bytes :
    decodeBytes [0x06, 0x10, 0x10, 0x00, 0xAA] = (.command (.addroundkey 16 16), [0xAA]) := by decide
/-- Three bytes are no command word (R69). -/
theorem test_decode_truncated : decodeBytes [0x01, 0x00, 0x00] = (.illegal .truncated, [0x01, 0x00, 0x00]) := by decide
/-- The host's word for the row LOADRK. -/
theorem test_decode_table_word : decodeTableWord 32 0x000000E8 = some (.loadrk 14) := by decide

/- ---- The commands ---- -/

/-- V1 (the source's S1). -/
theorem test_gfmul_worked_example : (after (exec .gfmul (bytesState 0x57 0x83))).map (·.BY) = some (.value 0xC1) := by
  decide +kernel
/-- V9e: both operands 0x80, the reduction at its longest. -/
theorem test_gfmul_reduces : (after (exec .gfmul (bytesState 0x80 0x80))).map (·.BY) = some (.value 0x9A) := by
  decide +kernel
/-- V10, and BB is not read (R92). -/
theorem test_sbox_row_and_column :
    (after (exec .sbox { State.reset with BA := .value 0x53 })).map (·.BY) = some (.value 0xED) := by decide +kernel
/-- V11h, the last entry. -/
theorem test_sbox_last_entry : (after (exec .sbox (bytesState 0xFF 0))).map (·.BY) = some (.value 0x16) := by
  decide +kernel
/-- V12. -/
theorem test_subbytes_standard_input :
    (after (exec (.subbytes 16) (blockState standardInput zeroBlock))).map (·.ST) = some (known
      #v[0x63, 0x82, 0x93, 0xc3, 0x1b, 0xfc, 0x33, 0xf5, 0xc4, 0xee, 0xac, 0xea, 0x4b, 0xc1, 0x28, 0x16]) := by
  decide +kernel
/-- V94: a failing check reads no operand byte, so ⊥ does no harm. -/
theorem test_subbytes_checks_before_operands :
    (after (exec (.subbytes 8) State.reset)).map (·.status.err) = some 1 := by decide +kernel
/-- V20 (the source's S3), `ABCDEFGHIJKLMNOP` to `AFKPEJODINCHMBGL`. -/
theorem test_shiftrows_letters :
    (after (exec (.shiftrows 16) (blockState
      #v[0x41, 0x42, 0x43, 0x44, 0x45, 0x46, 0x47, 0x48, 0x49, 0x4a, 0x4b, 0x4c, 0x4d, 0x4e, 0x4f, 0x50] zeroBlock))).map
      (·.ST) = some (known
      #v[0x41, 0x46, 0x4b, 0x50, 0x45, 0x4a, 0x4f, 0x44, 0x49, 0x4e, 0x43, 0x48, 0x4d, 0x42, 0x47, 0x4c]) := by
  decide +kernel
/-- V25: slen = 0 fails and leaves ST. -/
theorem test_shiftrows_length_zero :
    (after (exec (.shiftrows 0) (blockState standardInput zeroBlock))).map (fun t => (t.status.err, t.ST)) =
      some (1, known standardInput) := by decide +kernel
/-- V30, V30b, V30h and V30f, one in each column. -/
theorem test_mixcolumns_columns :
    (after (exec (.mixcolumns 16) (blockState
      #v[0xdb, 0x13, 0x53, 0x45, 0xf2, 0x0a, 0x22, 0x5c, 0x80, 0x00, 0x00, 0x00, 0x2d, 0x26, 0x31, 0x4c] zeroBlock))).map
      (·.ST) = some (known
      #v[0x8e, 0x4d, 0xa1, 0xbc, 0x9f, 0xdc, 0x58, 0x9d, 0x1b, 0x80, 0x80, 0x9b, 0x4d, 0x7e, 0xbd, 0xf8]) := by
  decide +kernel
/-- V33: slen = 32 fails. -/
theorem test_mixcolumns_length :
    (after (exec (.mixcolumns 32) (blockState standardInput zeroBlock))).map (fun t => (t.status.err, t.ST)) =
      some (1, known standardInput) := by decide +kernel
/-- V40. -/
theorem test_addroundkey_initial_round :
    (after (exec (.addroundkey 16 16) (blockState
      #v[0x32, 0x43, 0xf6, 0xa8, 0x88, 0x5a, 0x30, 0x8d, 0x31, 0x31, 0x98, 0xa2, 0xe0, 0x37, 0x07, 0x34]
      #v[0x2b, 0x7e, 0x15, 0x16, 0x28, 0xae, 0xd2, 0xa6, 0xab, 0xf7, 0x15, 0x88, 0x09, 0xcf, 0x4f, 0x3c]))).map (·.ST) =
      some (known #v[0x19, 0x3d, 0xe3, 0xbe, 0xa0, 0xf4, 0xe2, 0x2b, 0x9a, 0xc6, 0x8d, 0x2a, 0xe9, 0xf8, 0x48, 0x08]) := by
  decide +kernel
/-- V45: a klen legal for EXPANDKEY fails here. -/
theorem test_addroundkey_key_length :
    (after (exec (.addroundkey 16 24) (blockState standardInput zeroBlock))).map (·.status.err) = some 1 := by
  decide +kernel
/-- V56: AES-256, W[12] (the extra substitution of R144) and the last word W[59]. -/
theorem test_expandkey_256 :
    (after (exec (.expandkey 32) (keyState
      [0x60, 0x3d, 0xeb, 0x10, 0x15, 0xca, 0x71, 0xbe, 0x2b, 0x73, 0xae, 0xf0, 0x85, 0x7d, 0x77, 0x81,
       0x1f, 0x35, 0x2c, 0x07, 0x3b, 0x61, 0x08, 0xd7, 0x2d, 0x98, 0x10, 0xa3, 0x09, 0x14, 0xdf, 0xf4]))).map
      (fun t => (t.W[12], t.W[59])) =
      some (known #v[0xa8, 0xb0, 0x9c, 0x1a], known #v[0x70, 0x6c, 0x63, 0x1e]) := by decide +kernel
/-- V55: AES-192, the first derived word and the last one, ⊥ above it, and STATUS = 0x0C610000 (V52). -/
theorem test_expandkey_192 :
    (after (exec (.expandkey 24) (keyState
      [0x8e, 0x73, 0xb0, 0xf7, 0xda, 0x0e, 0x64, 0x52, 0xc8, 0x10, 0xf3, 0x2b, 0x80, 0x90, 0x79, 0xe5,
       0x62, 0xf8, 0xea, 0xd2, 0x52, 0x2c, 0x6b, 0x7b]))).map 
      (fun t => (t.W[6], t.W[51], allHeld t.W[52].toList, statusWord t.status)) =
      some (known #v[0xfe, 0x0c, 0x91, 0xf7], known #v[0x01, 0x00, 0x22, 0x02], false, 0x0C610000#32) := by
  decide +kernel
/-- V50 (the source's S4): LOADRK 1 of the all-zero key's schedule. -/
theorem test_loadrk_zero_key :
    (after (exec (.loadrk 1) scheduleState)).map (·.RK) = some (known
      #v[0x62, 0x63, 0x63, 0x63, 0x62, 0x63, 0x63, 0x63, 0x62, 0x63, 0x63, 0x63, 0x62, 0x63, 0x63, 0x63]) := by
  decide +kernel
/-- V5E3: round 11 of an AES-128 schedule. -/
theorem test_loadrk_beyond_last_round :
    (after (exec (.loadrk 11) scheduleState)).map (fun t => statusWord t.status) = some 0x0A410400#32 := by decide +kernel

/- ---- The core's step, the host and reset ---- -/

/-- V93: SUBBYTES right after reset meets ⊥: a model fault is recorded, and it sets no ERR (R180). -/
theorem test_step_bottom_operand :
    (after (step (State.reset.withFetchWord 32 0x00001003))).map (fun t => (t.recorded, t.status.err, t.pending)) =
      some ([.commandUsedBottom], 0, none) := by decide +kernel
/-- V82: LOADRK right after reset completes with ERR = 4. -/
theorem test_step_loadrk_after_reset :
    (after (step (State.reset.withFetchWord 32 0x00001008))).map (fun t => (statusWord t.status, t.pending)) =
      some (0x00000400#32, none) := by decide +kernel
/-- V70: the all-zero word completes with ERR = 3. -/
theorem test_step_illegal_word :
    (after (step (State.reset.withFetchWord 32 0))).map (fun t => statusWord t.status) = some 0x00000300#32 := by
  decide +kernel
/-- P1: the host's CMD write sets BUSY, and CMD reads the word back. -/
theorem test_cmd_write :
    (after (step (idleState [wrAction 0x044 0x00000001]))).map (fun t => (statusWord t.status, t.CMD, t.pending)) =
      some (0x00000001#32, 0x00000001#32, some 0x00000001#32) := by decide +kernel
/-- P1: `WR 0x040, 0x00008357` is LDB 0x57, 0x83. -/
theorem test_byteops_write :
    (after (step (idleState [wrAction 0x040 0x00008357]))).map (fun t => (t.BA, t.BB, t.BY.held)) =
      some (.value 0x57, .value 0x83, false) := by decide +kernel
/-- P1: the BYTEOPS word after GFMUL. -/
theorem test_byteops_read :
    (after (step { (bytesState 0x57 0x83) with BY := .value 0xC1, queue := [rdAction 0x040] })).map (·.resp) =
      some (.data 0x00C18357) := by decide +kernel
/-- P2: `RD 0x0FC` reads W[43] = 6f8f188e as 0x8E188F6F. -/
theorem test_schedule_read :
    (after (step { scheduleState with queue := [rdAction 0x0FC] })).map (·.resp) = some (.data 0x8E188F6F) := by
  decide +kernel
/-- P3: `WR 0x004, 0x8D305A88` loads column 1 of ST. -/
theorem test_state_write :
    (after (step (idleState [wrAction 0x004 0x8D305A88]))).map (fun t => (t.ST[3].held, t.ST[4], t.ST[7], t.ST[8].held)) =
      some (false, .value 0x88, .value 0x8D, false) := by decide +kernel
/-- V90, V91: STATUS and CMD after reset. -/
theorem test_reads_after_reset :
    (after (step (idleState [rdAction 0x048]))).map (·.resp) = some (.data 0) ∧
      (after (step (idleState [rdAction 0x044]))).map (·.resp) = some (.data 0) := by decide +kernel
/-- V92: a read of ST after reset is recorded as a model fault. -/
theorem test_read_bottom :
    (after (step (idleState [rdAction 0x000]))).map (·.recorded) = some [.hostReadBottom] := by decide +kernel
/-- V95: an ST write while BUSY = 1. -/
theorem test_write_while_busy :
    stop (step (busyState State.reset 0x00001003 1 [wrAction 0x000 0])) = some .busyAccess := by decide +kernel
/-- V96: a misaligned write. -/
theorem test_write_misaligned : stop (step (idleState [wrAction 0x002 0])) = some .misaligned := by decide +kernel
/-- R45: a one-byte write to ST. -/
theorem test_write_one_byte : stop (step (idleState [.access (.write 0x000 1 0)])) = some .badWidth := by decide +kernel
/-- V97: reserved offsets read 0. -/
theorem test_read_reserved :
    (after (step (idleState [rdAction 0x04C]))).map (·.resp) = some (.data 0) ∧
      (after (step (idleState [rdAction 0x3FC]))).map (·.resp) = some (.data 0) := by decide +kernel
/-- V98: a write of STATUS is ignored. -/
theorem test_write_status :
    (after (step (idleState [wrAction 0x048 0xFFFFFFFF]))).map (fun t => (statusWord t.status, t.resp)) =
      some (0#32, .written) := by decide +kernel
/-- V99: reset while EXPANDKEY is pending; and R176's "reset wins" over a command whose step would stop on ⊥. -/
theorem test_reset_aborts :
    after (step (busyState (keyState zeroKey) 0x00100007 5 [.reset])) = some State.reset ∧
      after (step (busyState State.reset 0x00001003 0 [.reset])) = some State.reset := by decide +kernel
/-- R191, U6: an access at the same time as reset. -/
theorem test_access_during_reset :
    stop (step (idleState [.resetDuring (.read 0x048 4)])) = some .accessDuringReset := by decide +kernel
/-- R67: `LOADRK 14` is 0x000000E8, and a length left out is 16. -/
theorem test_assemble :
    assemble (.loadrk 14) = 0x000000E8#32 ∧ assemble (.addroundkey none none) = 0x00101006#32 := by decide
/-- P3: LDST `3243f6a8885a308d313198a2e0370734`. -/
theorem test_ldst_words :
    HostLine.expand (.ldst
      #v[0x32, 0x43, 0xf6, 0xa8, 0x88, 0x5a, 0x30, 0x8d, 0x31, 0x31, 0x98, 0xa2, 0xe0, 0x37, 0x07, 0x34]) =
      [wrAction 0x000 0xA8F64332, wrAction 0x004 0x8D305A88, wrAction 0x008 0xA2983131, wrAction 0x00C 0x340737E0] := by
  decide +kernel

/- ---- Witnesses: for each obligation with hypotheses, concrete values that meet all of them ---- -/

theorem witness_DecodeOfEncode :
    (Instr.addroundkey 63 0).wf = true ∧ (Instr.expandkey 63).wf = true ∧ (Instr.loadrk 15).wf = true := by decide +kernel

theorem witness_DecodedCommandsAreWellFormed : decode 0x000000F8#32 = .command (.loadrk 15) := by decide +kernel

/-- A word for each legal opcode, and for the last clause the words of opcodes 0, 9 and 15 and of reserved bits 14 and 31. -/
theorem witness_OpcodePatternsAndFields :
    (0x003F3FF1#32 &&& 0xFFC0C00F#32 = 1 ∧ 0x003F3FF2#32 &&& 0xFFC0C00F#32 = 2 ∧ 0x00003F03#32 &&& 0xFFC0C00F#32 = 3 ∧
      0x00000004#32 &&& 0xFFC0C00F#32 = 4 ∧ 0x00001005#32 &&& 0xFFC0C00F#32 = 5 ∧ 0x003F3F06#32 &&& 0xFFC0C00F#32 = 6 ∧
      0x00200007#32 &&& 0xFFC0C00F#32 = 7 ∧ 0x000000F8#32 &&& 0xFFC0C00F#32 = 8) ∧
      0x00003FF0#32 &&& 0xFFC0C00F#32 = 0 ∧ 9 ≤ (0x00000009#32 &&& 0xFFC0C00F#32).toNat ∧
      9 ≤ (0x0000000F#32 &&& 0xFFC0C00F#32).toNat ∧ 9 ≤ (0x00004001#32 &&& 0xFFC0C00F#32).toNat ∧
      9 ≤ (0x80000001#32 &&& 0xFFC0C00F#32).toNat := by decide +kernel

theorem witness_SboxIsAffineInverse :
    (0x53 : Byte) ≠ 0 ∧ gfMultiply 0x53 0xCA = 1 ∧ gfMultiply 0x01 0x01 = 1 ∧ ((0 : Byte) = 0 ∧ (0 : Byte) = 0) := by
  decide +kernel

theorem witness_ExpansionRecurrence :
    ((4 = 4 ∨ 4 = 6 ∨ 4 = 8) ∧ zeroKey.length = 4 * 4 ∧ 3 < 4 ∧ 4 ≤ 43 ∧ 43 < 4 * (4 + 7)) ∧
      ((8 = 4 ∨ 8 = 6 ∨ 8 = 8) ∧ (List.replicate 32 (0 : Byte)).length = 4 * 8 ∧ 7 < 8 ∧ 8 ≤ 59 ∧ 59 < 4 * (8 + 7)) := by
  decide +kernel

/-- The last word of each schedule: index 10 for Nk = 4, 8 for Nk = 6 and 7 for Nk = 8. -/
theorem witness_RconFollowsDoubling :
    ((4 = 4 ∨ 4 = 6 ∨ 4 = 8) ∧ 4 ≤ 43 ∧ 43 < 4 * (4 + 7) ∧ 43 / 4 = 10) ∧
      ((6 = 4 ∨ 6 = 6 ∨ 6 = 8) ∧ 6 ≤ 51 ∧ 51 < 4 * (6 + 7) ∧ 51 / 6 = 8) ∧
      ((8 = 4 ∨ 8 = 6 ∨ 8 = 8) ∧ 8 ≤ 59 ∧ 59 < 4 * (8 + 7) ∧ 59 / 8 = 7) := by decide +kernel

theorem witness_GfmulResult :
    (bytesState 0x57 0x83).BA = .value 0x57 ∧ (bytesState 0x57 0x83).BB = .value 0x83 ∧
      (isBottom ({ State.reset with BA := .value 1 } : State).BA ∨ isBottom ({ State.reset with BA := .value 1 } : State).BB) ∧
      0x003F3FF1#32 &&& 0xFFC0C00F#32 = 1 := by decide +kernel

theorem witness_SboxResult :
    (bytesState 0x53 0).BA = .value 0x53 ∧ isBottom State.reset.BA ∧ 0x003F3FF2#32 &&& 0xFFC0C00F#32 = 2 := by decide +kernel

/-- All of ST holds values; a length below and one above 16; the last byte of ST is ⊥ after reset. -/
theorem witness_SubbytesResult :
    (blockState standardInput zeroBlock).ST = known standardInput ∧ 0 ≠ 16 ∧ 63 ≠ 16 ∧ isBottom State.reset.ST[15] ∧
      0x00000F03#32 &&& 0xFFC0C00F#32 = 3 := ⟨rfl, by decide, by decide, rfl, by decide⟩

theorem witness_ShiftrowsResult :
    (blockState standardInput zeroBlock).ST = known standardInput ∧ 0 ≠ 16 ∧ 63 ≠ 16 ∧ isBottom State.reset.ST[15] ∧
      0x00000004#32 &&& 0xFFC0C00F#32 = 4 := ⟨rfl, by decide, by decide, rfl, by decide⟩

theorem witness_MixcolumnsResult :
    (blockState standardInput zeroBlock).ST = known standardInput ∧ 0 ≠ 16 ∧ 63 ≠ 16 ∧ isBottom State.reset.ST[15] ∧
      0x00002005#32 &&& 0xFFC0C00F#32 = 5 := ⟨rfl, by decide, by decide, rfl, by decide⟩

/-- Both registers hold values; each of the two lengths wrong; ST loaded and RK still ⊥. -/
theorem witness_AddroundkeyResult :
    (blockState standardInput zeroBlock).ST = known standardInput ∧ (blockState standardInput zeroBlock).RK = known zeroBlock ∧
      (15 ≠ 16 ∨ 16 ≠ 16) ∧ (16 ≠ 16 ∨ 24 ≠ 16) ∧
      (isBottom ({ State.reset with ST := known standardInput } : State).ST[15] ∨
        isBottom ({ State.reset with ST := known standardInput } : State).RK[15]) ∧
      0x00181006#32 &&& 0xFFC0C00F#32 = 6 := ⟨rfl, rfl, by decide, by decide, .inr rfl, by decide⟩

/-- One key of each length; of a shorter key the rest of CK is ⊥, so a longer KLEN meets ⊥ at byte 16; lengths 0, 20, 33 and 63 fail; the host's write of the last word of CK. -/
theorem witness_ExpandkeyResult :
    ((keyState zeroKey).CK.toList.take 16 = zeroKey.map .value ∧
      (keyState (List.replicate 24 7)).CK.toList.take 24 = (List.replicate 24 7).map .value ∧
      (keyState (List.replicate 32 7)).CK.toList.take 32 = (List.replicate 32 7).map .value) ∧
    (∀ n ∈ [0, 20, 33, 63], n ≠ 16 ∧ n ≠ 24 ∧ n ≠ 32) ∧
    ((24 = 16 ∨ 24 = 24 ∨ 24 = 32) ∧ 16 < 24 ∧ isBottom (keyState zeroKey).CK[16]) ∧
    0x00140007#32 &&& 0xFFC0C00F#32 = 7 ∧
    (idleState [wrAction 0x03C 1]).pending = none ∧ 0x020 ≤ (0x03C : BitVec 10).toNat ∧ (0x03C : BitVec 10).toNat < 0x040 ∧
    (idleState [wrAction 0x03C 1]).queue = .access (.write 0x03C 4 1) :: [] ∧
    (after (step (idleState [wrAction 0x03C 1]))).isSome = true := by decide +kernel

/-- The schedule invariant in the state after EXPANDKEY. -/
theorem scheduleState_inv : scheduleInv scheduleState :=
  ⟨fun _ => ⟨zeroKey, by decide +kernel, by decide +kernel, by decide +kernel⟩, fun h => absurd h (by decide +kernel)⟩

/-- Rounds 0 and 10 of the all-zero key's AES-128 schedule, and round 11 above it; no schedule after reset; the schedule invariant. -/
theorem witness_LoadrkResult :
    (scheduleState.status.ksv = true ∧ 0 ≤ scheduleState.status.ksNr.toNat ∧ 10 ≤ scheduleState.status.ksNr.toNat ∧ 10 ≤ 14 ∧
      (∀ m : Fin 4, scheduleState.W[4 * 0 + m.val] = known zeroWord) ∧
      (∀ m : Fin 4, scheduleState.W[4 * 10 + m.val] = known ((expandKey 4 zeroKey).getD (4 * 10 + m.val) zeroWord))) ∧
    State.reset.status.ksv = false ∧ scheduleState.status.ksNr.toNat < 11 ∧ legalTriple State.reset.status ∧
    0x000000F8#32 &&& 0xFFC0C00F#32 = 8 ∧ legalTriple scheduleState.status ∧ scheduleInv scheduleState :=
  ⟨by decide +kernel, by decide +kernel, by decide +kernel, by decide +kernel, by decide +kernel, by decide +kernel,
    scheduleState_inv⟩

theorem witness_ZeroKeyRoundOne : (keyState zeroKey).CK.toList.take 16 = List.replicate 16 (.value 0) := by decide +kernel

/-- One pending word for each code: illegal, a bad SLEN, a bad KLEN of ADDROUNDKEY and of EXPANDKEY, a round above KS_NR and one without a schedule. -/
theorem witness_FailingCommandsChangeOnlyErr :
    ((busyState State.reset 0x00004003 0 []).pending = some 0x00004003#32 ∧ (busyState State.reset 0x00004003 0 []).wait = 0 ∧
      resetNow (busyState State.reset 0x00004003 0 []).queue = false ∧ decode 0x00004003#32 = .illegal .reservedBits) ∧
    decode 0x00000F03#32 = .command (.subbytes 15) ∧ decode 0x00000004#32 = .command (.shiftrows 0) ∧
    decode 0x00002005#32 = .command (.mixcolumns 32) ∧ decode 0x00181006#32 = .command (.addroundkey 16 24) ∧
    decode 0x00140007#32 = .command (.expandkey 20) ∧
    (scheduleState.status.ksNr.toNat < 11 ∧ decode 0x000000B8#32 = .command (.loadrk 11)) ∧
    (State.reset.status.ksv = false ∧ decode 0x00000008#32 = .command (.loadrk 0)) := by decide +kernel

/-- Each premise: a check that passes with operands ⊥ and with operands held, and checks that fail. -/
theorem witness_CommandsAlwaysComplete :
    (check (.subbytes 16) State.reset.status = none ∧ operandsHeld (.subbytes 16) State.reset = false) ∧
      check (.subbytes 15) State.reset.status = some .invalidBlockLength ∧
      check (.expandkey 20) State.reset.status = some .invalidKeyLength ∧
      check (.loadrk 0) State.reset.status = some .invalidRound ∧
      operandsHeld (.subbytes 16) (blockState standardInput zeroBlock) = true ∧
      operandsHeld (.expandkey 16) (keyState zeroKey) = true ∧ operandsHeld (.expandkey 24) (keyState zeroKey) = false ∧
      (check (.loadrk 10) scheduleState.status = none ∧ operandsHeld (.loadrk 10) scheduleState = true) := by
  decide +kernel

/-- One next state for each shape of write; and two states that agree on the key read and on nothing else of CK, ST and BA. -/
theorem witness_CommandsKeepToTheirRow :
    ((∃ t, exec .sbox (bytesState 0x57 0x83) = .next t) ∧
      (∃ t, exec (.addroundkey 16 16) (blockState standardInput zeroBlock) = .next t) ∧
      (∃ t, exec (.expandkey 16) (keyState zeroKey) = .next t) ∧ (∃ t, exec (.loadrk 10) scheduleState = .next t)) ∧
    ((keyState (zeroKey ++ [1, 2, 3, 4])).CK.toList.take 16 = (keyState zeroKey).CK.toList.take 16 ∧
      (keyState (zeroKey ++ [1, 2, 3, 4])).CK ≠ (keyState zeroKey).CK) ∧
    (bytesState 0x57 0x83).BA = ({ (blockState standardInput zeroBlock) with BA := .value 0x57 } : State).BA :=
  ⟨⟨next_some (by decide +kernel), next_some (by decide +kernel), next_some (by decide +kernel),
    next_some (by decide +kernel)⟩, by decide +kernel, rfl⟩

/-- The bytes next to each destination: 0x041 and 0x043 at BY, 0x010 above ST, 0x04F and 0x140 at W, 0x00F and 0x020 at RK. -/
theorem witness_CommandsLeaveOtherWindowBytes :
    (∃ t, exec .gfmul (bytesState 0x57 0x83) = .next t) ∧ ¬ (0x048 ≤ 0x041 ∧ 0x041 < 0x04C) ∧ 0x041 ≠ 0x042 ∧ 0x043 ≠ 0x042 ∧
      (∃ t, exec (.shiftrows 16) (blockState standardInput zeroBlock) = .next t) ∧ 0x010 ≤ 0x010 ∧
      (∃ t, exec (.expandkey 16) (keyState zeroKey) = .next t) ∧ ¬ (0x050 ≤ 0x04F ∧ 0x04F < 0x140) ∧
      ¬ (0x050 ≤ 0x140 ∧ 0x140 < 0x140) ∧
      (∃ t, exec (.loadrk 10) scheduleState = .next t) ∧ ¬ (0x010 ≤ 0x00F ∧ 0x00F < 0x020) ∧
      ¬ (0x010 ≤ 0x020 ∧ 0x020 < 0x020) :=
  ⟨next_some (by decide +kernel), by decide +kernel, by decide +kernel, by decide +kernel, next_some (by decide +kernel), by decide +kernel,
    next_some (by decide +kernel), by decide +kernel, by decide +kernel, next_some (by decide +kernel), by decide +kernel, by decide +kernel⟩

theorem witness_StepRunsPendingCommand :
    (busyState (bytesState 0x57 0x83) 0x00000001 0 []).pending = some 0x00000001#32 ∧
      (busyState (bytesState 0x57 0x83) 0x00000001 0 []).wait = 0 ∧
      resetNow (busyState (bytesState 0x57 0x83) 0x00000001 0 []).queue = false ∧ decode 0x00000001#32 = .command .gfmul := by decide +kernel

/-- One word for each clause: opcode 0, opcodes 9 and 15, reserved bits 14 and 31. -/
theorem witness_StepIllegalCommand :
    (busyState State.reset 0x00000000 0 []).pending = some 0x00000000#32 ∧
      (busyState State.reset 0x00000000 0 []).wait = 0 ∧
      resetNow (busyState State.reset 0x00000000 0 []).queue = false ∧ ((0x00000000#32 &&& 0xF#32).toNat = 0) ∧
      9 ≤ (0x00000009#32 &&& 0xF#32).toNat ∧ 9 ≤ (0x0000000F#32 &&& 0xF#32).toNat ∧
      0x00004001#32 &&& 0xFFC0C000#32 ≠ 0 ∧ 0x80000001#32 &&& 0xFFC0C000#32 ≠ 0 := by decide +kernel

theorem witness_PlacedWordRunsNext : decodeTableWord 32 0x00100007 = some (.expandkey 16) := by decide +kernel

theorem witness_CmdWriteIssues :
    (idleState [.access (.write 0x044 4 0x00001003), .poll]).pending = none ∧
      (idleState [.access (.write 0x044 4 0x00001003), .poll]).queue = .access (.write 0x044 4 0x00001003) :: [.poll] := by
  decide +kernel

theorem witness_RegisterMap : (0x140 ≤ 0x140 ∧ 0x140 < 0x400) ∧ (0x140 ≤ 0x3FF ∧ 0x3FF < 0x400) := by decide

/-- The first word of ST and the last word of CK. -/
theorem witness_OperandWriteThenRead :
    (idleState [.access (.write 0x000 4 0x33221100), .access (.read 0x000 4)]).pending = none ∧
      (0x000 : BitVec 10).toNat % 4 = 0 ∧ (0x000 : BitVec 10).toNat < 0x040 ∧
      (idleState [.access (.write 0x000 4 0x33221100), .access (.read 0x000 4)]).queue =
        .access (.write 0x000 4 0x33221100) :: .access (.read 0x000 4) :: [] ∧
      (0x03C : BitVec 10).toNat % 4 = 0 ∧ (0x03C : BitVec 10).toNat < 0x040 ∧
      (idleState [.access (.write 0x03C 4 0x1F1E1D1C), .access (.read 0x03C 4)]).queue =
        .access (.write 0x03C 4 0x1F1E1D1C) :: .access (.read 0x03C 4) :: [] ∧
      (0x040 < 0x03C ∨ 0x03C + 4 ≤ 0x040) := by decide +kernel

theorem witness_ByteopsWriteAndRead :
    (idleState [.access (.write 0x040 4 0x00008357)]).pending = none ∧
      (idleState [.access (.write 0x040 4 0x00008357)]).queue = .access (.write 0x040 4 0x00008357) :: [] ∧
      ({ (bytesState 0x57 0x83) with BY := .value 0xC1, queue := [.access (.read 0x040 4)] } : State).pending = none ∧
      ({ (bytesState 0x57 0x83) with BY := .value 0xC1, queue := [.access (.read 0x040 4)] } : State).queue =
        .access (.read 0x040 4) :: [] ∧
      ({ (bytesState 0x57 0x83) with BY := .value 0xC1, queue := [.access (.read 0x040 4)] } : State).BA = .value 0x57 ∧
      ({ (bytesState 0x57 0x83) with BY := .value 0xC1, queue := [.access (.read 0x040 4)] } : State).BB = .value 0x83 ∧
      ({ (bytesState 0x57 0x83) with BY := .value 0xC1, queue := [.access (.read 0x040 4)] } : State).BY = .value 0xC1 := by
  decide +kernel

/-- Writes at the first (STATUS, 0x048) and last (0x3FC) offset of the clause; reads at 0x04C, 0x140 and 0x3FC. -/
theorem witness_ReadOnlyAndReservedOffsets :
    ((idleState [.access (.write 0x048 4 0xFFFFFFFF)]).pending = none ∧
      (idleState [.access (.write 0x048 4 0xFFFFFFFF)]).queue = .access (.write 0x048 4 0xFFFFFFFF) :: [] ∧
      (0x048 : BitVec 10).toNat % 4 = 0 ∧ 0x048 ≤ (0x048 : BitVec 10).toNat ∧ (0x3FC : BitVec 10).toNat % 4 = 0 ∧
      0x048 ≤ (0x3FC : BitVec 10).toNat ∧ 0x048 ≤ (0x050 : BitVec 10).toNat) ∧
    ((idleState [.access (.read 0x04C 4)]).pending = none ∧
      (idleState [.access (.read 0x04C 4)]).queue = .access (.read 0x04C 4) :: [] ∧ (0x04C : BitVec 10).toNat % 4 = 0 ∧
      (0x140 : BitVec 10).toNat % 4 = 0 ∧ 0x140 ≤ (0x140 : BitVec 10).toNat ∧ 0x140 ≤ (0x3FC : BitVec 10).toNat) := by
  decide +kernel

/-- Idle, and busy with one cycle to wait. -/
theorem witness_StatusAndCmdReads :
    ((idleState [.access (.read 0x048 4)]).pending = none ∧
      (idleState [.access (.read 0x048 4)]).queue = .access (.read 0x048 4) :: []) ∧
    (0 < (busyState State.reset 0x00001003 1 [.access (.read 0x048 4)]).wait ∧
      (busyState State.reset 0x00001003 1 [.access (.read 0x048 4)]).queue = .access (.read 0x048 4) :: []) ∧
    (0 < (busyState State.reset 0x00001003 1 [.access (.read 0x044 4)]).wait ∧
      (busyState State.reset 0x00001003 1 [.access (.read 0x044 4)]).queue = .access (.read 0x044 4) :: []) := by decide +kernel

/-- A ⊥ word and a word of values: ST after reset, and ST once it is loaded. -/
theorem witness_ReadOfBottomIsRecorded :
    ((idleState [.access (.read 0x000 4)]).pending = none ∧ (0x000 : BitVec 10).toNat % 4 = 0 ∧
      (idleState [.access (.read 0x000 4)]).queue = .access (.read 0x000 4) :: [] ∧
      ∃ j : Fin 4, isBottom (windowByte (idleState [.access (.read 0x000 4)]) ((0x000 : BitVec 10).toNat + j.val))) ∧
    (({ (blockState standardInput zeroBlock) with queue := [.access (.read 0x00C 4)] } : State).pending = none ∧
      (0x00C : BitVec 10).toNat % 4 = 0 ∧
      ∀ j : Fin 4, windowByte { (blockState standardInput zeroBlock) with queue := [.access (.read 0x00C 4)] }
        ((0x00C : BitVec 10).toNat + j.val) = .value (#v[0xcc, 0xdd, 0xee, 0xff] : Vector Byte 4)[j]) := by decide +kernel

/-- Two bytes of BYTEOPS hold values and BY is ⊥; and a word of W after reset. -/
theorem witness_ReadOfBottomGivesPatterns :
    (({ (bytesState 0x57 0x83) with queue := [.access (.read 0x040 4)] } : State).pending = none ∧
      (0x040 : BitVec 10).toNat % 4 = 0 ∧
      ({ (bytesState 0x57 0x83) with queue := [.access (.read 0x040 4)] } : State).queue = .access (.read 0x040 4) :: [] ∧
      ∃ j : Fin 4, isBottom (windowByte { (bytesState 0x57 0x83) with queue := [.access (.read 0x040 4)] }
        ((0x040 : BitVec 10).toNat + j.val))) ∧
    ((idleState [.access (.read 0x13C 4)]).pending = none ∧ (0x13C : BitVec 10).toNat % 4 = 0 ∧
      (idleState [.access (.read 0x13C 4)]).queue = .access (.read 0x13C 4) :: [] ∧
      ∃ j : Fin 4, isBottom (windowByte (idleState [.access (.read 0x13C 4)]) ((0x13C : BitVec 10).toNat + j.val))) := by
  decide +kernel

/-- A one-byte read and a misaligned write on an idle core, a misaligned read on a busy one. -/
theorem witness_MisalignedAndNarrowAccessesFault :
    ((idleState [.access (.read 0x000 1)]).pending = none ∧
      (idleState [.access (.read 0x000 1)]).queue = .access (.read 0x000 1) :: [] ∧ 1 ≠ 4) ∧
    ((idleState [.access (.write 0x002 4 0)]).pending = none ∧
      (idleState [.access (.write 0x002 4 0)]).queue = .access (.write 0x002 4 0) :: [] ∧ (0x002 : BitVec 10).toNat % 4 ≠ 0) ∧
    (0 < (busyState State.reset 0x00001003 1 [.access (.read 0x3FF 4)]).wait ∧
      (busyState State.reset 0x00001003 1 [.access (.read 0x3FF 4)]).queue = .access (.read 0x3FF 4) :: [] ∧
      (0x3FF : BitVec 10).toNat % 4 ≠ 0) := by decide +kernel

/-- The same accesses, in the one premise that covers both. -/
theorem witness_MisalignedOrNarrowAccessStops :
    ((idleState [.access (.read 0x001 1)]).pending = none ∧
      (idleState [.access (.read 0x001 1)]).queue = .access (.read 0x001 1) :: [] ∧
      (1 ≠ 4 ∨ (0x001 : BitVec 10).toNat % 4 ≠ 0)) ∧
    (0 < (busyState State.reset 0x00001003 1 [.access (.write 0x3FF 4 0)]).wait ∧
      (busyState State.reset 0x00001003 1 [.access (.write 0x3FF 4 0)]).queue = .access (.write 0x3FF 4 0) :: [] ∧
      (4 ≠ 4 ∨ (0x3FF : BitVec 10).toNat % 4 ≠ 0)) := by decide +kernel

/-- A read of ST, and a second write of CMD. -/
theorem witness_BusyAccessFaults :
    ((busyState State.reset 0x00001003 1 [.access (.read 0x000 4)]).pending = some 0x00001003#32 ∧
      0 < (busyState State.reset 0x00001003 1 [.access (.read 0x000 4)]).wait ∧ (0x000 : BitVec 10).toNat % 4 = 0 ∧
      (busyState State.reset 0x00001003 1 [.access (.read 0x000 4)]).queue = .access (.read 0x000 4) :: [] ∧
      (0x000 : BitVec 10) ≠ 0x044 ∧ (0x000 : BitVec 10) ≠ 0x048) ∧
    ((busyState State.reset 0x00001003 1 [.access (.write 0x044 4 1)]).queue = .access (.write 0x044 4 1) :: [] ∧
      (0x044 : BitVec 10).toNat % 4 = 0) := by decide +kernel

/-- Idle with registers loaded, and while EXPANDKEY is pending; an access at the same time, also a misaligned one. -/
theorem witness_ResetGivesResetState :
    ((blockState standardInput zeroBlock).setQueue [.reset]).queue = .reset :: [] ∧
    (busyState (keyState zeroKey) 0x00100007 5 [.reset]).queue = .reset :: [] ∧
    (idleState [.resetDuring (.write 0x001 4 0)]).queue = .resetDuring (.write 0x001 4 0) :: [] ∧
    (busyState State.reset 0x00100007 0 [.resetDuring (.read 0x048 4)]).queue = .resetDuring (.read 0x048 4) :: [] := by
  decide +kernel

/-- Idle, while a command is pending, and in the very moment its step is due. -/
theorem witness_ResetStep :
    (idleState [.reset]).queue = .reset :: [] ∧ (busyState State.reset 0x00100007 5 [.reset]).queue = .reset :: [] ∧
    (busyState State.reset 0x00100007 0 [.reset]).queue = .reset :: [] ∧
    (idleState [.resetDuring (.read 0x048 4)]).queue = .resetDuring (.read 0x048 4) :: [] := by decide +kernel

theorem witness_IdleCoreHoldsState :
    State.reset.pending = none ∧ State.reset.queue = [] ∧ (idleState [.idle]).pending = none ∧
      (idleState [.idle]).queue = .idle :: [] := by decide +kernel

/-- A host's CMD write from a state that meets the invariant, and the core's step of a pending command. -/
theorem witness_StepKeepsStatusInvariant :
    (statusInv (idleState [wrAction 0x044 1]) ∧ ∃ t, step (idleState [wrAction 0x044 1]) = .next t) ∧
      (statusInv (busyState (bytesState 0x57 0x83) 1 0 []) ∧ ∃ t, step (busyState (bytesState 0x57 0x83) 1 0 []) = .next t) :=
  ⟨⟨by decide +kernel, next_some (by decide +kernel)⟩, by decide +kernel, next_some (by decide +kernel)⟩

/-- EXPANDKEY from the reset state's empty schedule, and from a state that holds one. -/
theorem witness_StepKeepsScheduleInvariant :
    (statusInv (busyState (keyState zeroKey) 0x00100007 0 []) ∧ scheduleInv (busyState (keyState zeroKey) 0x00100007 0 []) ∧
      ∃ t, step (busyState (keyState zeroKey) 0x00100007 0 []) = .next t) ∧
    (statusInv (busyState scheduleState 0x000000A8 0 []) ∧ scheduleInv (busyState scheduleState 0x000000A8 0 []) ∧
      ∃ t, step (busyState scheduleState 0x000000A8 0 []) = .next t) :=
  ⟨⟨by decide +kernel, ⟨fun h => absurd h (by decide +kernel), fun _ => by decide +kernel⟩, next_some (by decide +kernel)⟩, by decide +kernel, scheduleState_inv,
    next_some (by decide +kernel)⟩

/-- A successful EXPANDKEY sets KSV, and a reset clears it. -/
theorem witness_ScheduleChangesOnlyByExpandkeyOrReset :
    (∃ t, step (busyState (keyState zeroKey) 0x00100007 0 []) = .next t ∧
      t.status.ksv ≠ (busyState (keyState zeroKey) 0x00100007 0 []).status.ksv) ∧
    (∃ t, step (scheduleState.setQueue [.reset]) = .next t ∧ t.status.ksv ≠ (scheduleState.setQueue [.reset]).status.ksv) :=
  ⟨next_such (by decide +kernel), next_such (by decide +kernel)⟩

/-- A host write of the last CK word changes CK, and GFMUL changes BY. -/
theorem witness_KeyAndResultRegisterWriters :
    (∃ t, step (idleState [wrAction 0x03C 0x1F1E1D1C]) = .next t ∧ t.CK ≠ (idleState [wrAction 0x03C 0x1F1E1D1C]).CK) ∧
    (∃ t, step (busyState (bytesState 0x57 0x83) 1 0 []) = .next t ∧ t.BY ≠ (busyState (bytesState 0x57 0x83) 1 0 []).BY) :=
  ⟨next_such (by decide +kernel), next_such (by decide +kernel)⟩

/-- An illegal word writes ERR = 3, a command that succeeds clears an ERR of 4, and so does a reset. -/
theorem witness_ErrDescribesLastCommand :
    ((busyState State.reset 0 0 []).pending = some 0#32 ∧ (busyState State.reset 0 0 []).wait = 0 ∧
      resetNow (busyState State.reset 0 0 []).queue = false) ∧
    (∃ t, step (busyState State.reset 0 0 []) = .next t ∧ t.status.err ≠ (busyState State.reset 0 0 []).status.err) ∧
    (∃ t, step (busyState ((bytesState 1 1).setErr 4) 1 0 []) = .next t ∧
      t.status.err ≠ (busyState ((bytesState 1 1).setErr 4) 1 0 []).status.err) ∧
    (∃ t, step ((State.reset.setErr 4).setQueue [.reset]) = .next t ∧
      t.status.err ≠ ((State.reset.setErr 4).setQueue [.reset]).status.err) :=
  ⟨by decide +kernel, next_such (by decide +kernel), next_such (by decide +kernel), next_such (by decide +kernel)⟩

/-- GFMUL with three bus cycles to wait and a host that polls. -/
theorem witness_PollCompletes :
    (busyState (bytesState 0x57 0x83) 1 3 [.poll]).pending = some 1#32 ∧
      (busyState (bytesState 0x57 0x83) 1 3 [.poll]).status.busy = true ∧
      (busyState (bytesState 0x57 0x83) 1 3 [.poll]).queue = .poll :: [] := by decide +kernel

/-- A host that issues GFMUL, reads CMD, polls, and reads its result; and one that starts while a command is in flight. -/
theorem witness_DisciplinedHostNeverMeetsBusyFault :
    (statusInv (idleState [wrAction 0x044 1, rdAction 0x044, .poll, rdAction 0x040]) ∧
      disciplined (idleState [wrAction 0x044 1, rdAction 0x044, .poll, rdAction 0x040]).pending.isSome
        (idleState [wrAction 0x044 1, rdAction 0x044, .poll, rdAction 0x040]).queue = true) ∧
    (statusInv (busyState State.reset 1 2 [rdAction 0x048, .poll, wrAction 0x000 0]) ∧
      disciplined (busyState State.reset 1 2 [rdAction 0x048, .poll, wrAction 0x000 0]).pending.isSome
        (busyState State.reset 1 2 [rdAction 0x048, .poll, wrAction 0x000 0]).queue = true) := by decide +kernel

/-- A CMD write of a host that polls, and the core's step of a command whose host has not polled yet. -/
theorem witness_StepKeepsDiscipline :
    (statusInv (idleState [wrAction 0x044 1, .poll, rdAction 0x040]) ∧
      disciplined (idleState [wrAction 0x044 1, .poll, rdAction 0x040]).pending.isSome
        (idleState [wrAction 0x044 1, .poll, rdAction 0x040]).queue = true ∧
      ∃ t, step (idleState [wrAction 0x044 1, .poll, rdAction 0x040]) = .next t) ∧
    (statusInv (busyState (bytesState 0x57 0x83) 1 0 [rdAction 0x048, .poll]) ∧
      disciplined (busyState (bytesState 0x57 0x83) 1 0 [rdAction 0x048, .poll]).pending.isSome
        (busyState (bytesState 0x57 0x83) 1 0 [rdAction 0x048, .poll]).queue = true ∧
      ∃ t, step (busyState (bytesState 0x57 0x83) 1 0 [rdAction 0x048, .poll]) = .next t) :=
  ⟨⟨by decide +kernel, by decide +kernel, next_some (by decide +kernel)⟩, by decide +kernel, by decide +kernel,
    next_some (by decide +kernel)⟩

/-- One step of a host that writes ST, from the reset patterns and from the same state with other patterns in RK, W and BY. -/
theorem witness_UnrecordedRunsIgnoreBottomPatterns :
    agrees (idleState [wrAction 0x000 0])
      { (idleState [wrAction 0x000 0]) with
        RK := tabulate fun _ => .bottom 0xA5, BY := .bottom 0x55
        W := tabulate fun _ => tabulate fun _ => .bottom 0xFF } ∧
    ∃ t, Sys2Proof.core.run 1 (idleState [wrAction 0x000 0]) = .next t ∧
      t.recorded = (idleState [wrAction 0x000 0]).recorded :=
  ⟨by decide +kernel, next_such (o := Sys2Proof.core.run 1 (idleState [wrAction 0x000 0])) (by decide +kernel)⟩

/-- Two instances at neighbouring windows; the last offset of one, and the first address above it. -/
theorem witness_InstancesShareNothing :
    (∃ sys', System.stepAt 0 [⟨0x1000, State.reset⟩, ⟨0x1400, scheduleState⟩] = .next sys') ∧ 1 ≠ 0 ∧
      ([⟨0x1000, State.reset⟩, ⟨0x1400, scheduleState⟩] : System)[1]? = some ⟨0x1400, scheduleState⟩ ∧ 1023 < 1024 ∧
      ((SystemAccess.read 0x13FF 4).addr < 0x1400 ∨ 0x1400 + 1024 ≤ (SystemAccess.read 0x13FF 4).addr) ∧
      ((SystemAccess.read 0x1800 4).addr < 0x1400 ∨ 0x1400 + 1024 ≤ (SystemAccess.read 0x1800 4).addr) :=
  ⟨⟨_, rfl⟩, by decide +kernel, rfl, by decide +kernel, by decide +kernel, by decide +kernel⟩

theorem witness_LdstLoadsState :
    (State.reset.setQueue (HostLine.expand (.ldst standardInput) ++ [.poll])).pending = none ∧
      (State.reset.setQueue (HostLine.expand (.ldst standardInput) ++ [.poll])).queue =
        HostLine.expand (.ldst standardInput) ++ [.poll] := ⟨rfl, rfl⟩

/-- Round 1 and the last full round 9 of an AES-128 schedule. -/
theorem witness_RoundMacroComputesAesRound :
    statusInv { scheduleState with ST := known standardInput, queue := HostLine.expand (.round 9) ++ [] } ∧
      scheduleInv { scheduleState with ST := known standardInput, queue := HostLine.expand (.round 9) ++ [] } ∧
      scheduleState.pending = none ∧ scheduleState.status.ksv = true ∧ 1 ≤ scheduleState.status.ksNr.toNat ∧
      9 ≤ scheduleState.status.ksNr.toNat :=
  ⟨by decide +kernel, scheduleState_inv, rfl, by decide +kernel, by decide +kernel, by decide +kernel⟩

end Sys2Proof.Tests
end

section
/-! PROOFS. The state after reset (10_state.md R38). -/

namespace Sys2Proof.Proofs

open Sys2Proof.Machine Sys2Proof.Safety

theorem isBottom_bottom (p : Byte) : isBottom (.bottom p) := rfl

theorem isBottom_replicate {n : Nat} (p : Byte) (i : Fin n) :
    isBottom (Vector.replicate n (RegByte.bottom p))[i] := by
  rw [Fin.getElem_fin, Vector.getElem_replicate]
  exact isBottom_bottom p

theorem isBottom_reset_W (i : Fin 60) (j : Fin 4) : isBottom State.reset.W[i][j] := by
  have row : State.reset.W[i] = Vector.replicate 4 (.bottom 0x00) := Vector.getElem_replicate i.isLt
  rw [row]
  exact isBottom_replicate _ j

theorem allBottom_reset : allBottom State.reset :=
  ⟨isBottom_replicate _, isBottom_replicate _, isBottom_replicate _,
    isBottom_bottom _, isBottom_bottom _, isBottom_bottom _, isBottom_reset_W⟩

@[simp] theorem reset_CMD : State.reset.CMD = 0 := rfl

@[simp] theorem statusWord_reset : statusWord Status.reset = 0 := by decide

/-- Settles O42: the data bytes by `allBottom_reset`, the other fields by their reset values. -/
theorem resetValues : Obligations.ResetValues := by
  obtain ⟨hST, hRK, hCK, hBA, hBB, hBY, hW⟩ := allBottom_reset
  exact ⟨hST, hRK, hCK, hBA, hBB, hBY, hW, reset_CMD, statusWord_reset, State.reset_pending⟩

end Sys2Proof.Proofs
end

section
/-! PROOFS. The host's accesses to the window: alignment, width, read-only and reserved offsets (20_memory.md R44, R45, R48). -/

namespace Sys2Proof.Proofs

open Sys2Proof.Machine

theorem tick_idle {s : State} (h : s.pending = none) : s.tick = s := by
  simp [State.tick, h]

/-- In a bus cycle of the host the access at the head of the queue is made, after the countdown of a pending command. -/
theorem step_access {s : State} {a : Access} {q : List HostAction} (hturn : s.pending = none ∨ 0 < s.wait)
    (hq : s.queue = .access a :: q) : step s = hostAccess a (s.tick.setQueue q) := by
  rw [step_host (hturn.imp_right .inl), hostCycle, State.tick_queue, hq]
  rfl

theorem step_access_idle {s : State} {a : Access} {q : List HostAction} (hidle : s.pending = none)
    (hq : s.queue = .access a :: q) : step s = hostAccess a (s.setQueue q) := by
  rw [step_access (.inl hidle) hq, tick_idle hidle]

/-- R45: the width is looked at first. -/
theorem hostAccess_badWidth {bytes : Nat} (h : bytes ≠ 4) (off : BitVec 10) (v : Word) (s : State) :
    hostAccess (.read off bytes) s = .fault .badWidth ∧ hostAccess (.write off bytes v) s = .fault .badWidth :=
  ⟨if_pos h, if_pos h⟩

/-- R44: the alignment is looked at next, before the busy hazard. -/
theorem hostAccess_misaligned {off : BitVec 10} (h : off.toNat % 4 ≠ 0) (v : Word) (s : State) :
    hostAccess (.read off 4) s = .fault .misaligned ∧ hostAccess (.write off 4 v) s = .fault .misaligned := by
  simp [hostAccess, hostRead, hostWrite, h]

theorem hostAccess_stops {off : BitVec 10} {bytes : Nat} (h : bytes ≠ 4 ∨ off.toNat % 4 ≠ 0) (v : Word) (s : State) :
    ∃ f : Fault, hostAccess (.read off bytes) s = .fault f ∧ hostAccess (.write off bytes v) s = .fault f := by
  by_cases hwidth : bytes = 4
  · subst hwidth
    exact ⟨_, hostAccess_misaligned (h.resolve_left (not_not_intro rfl)) v s⟩
  · exact ⟨_, hostAccess_badWidth hwidth off v s⟩

/-- Settles O57: idle or busy, the step makes the access, and `hostAccess_stops` says that it stops. -/
theorem misalignedOrNarrowAccessStops : Obligations.MisalignedOrNarrowAccessStops := by
  intro s off bytes v q hturn hq hbad
  obtain ⟨f, hread, hwrite⟩ := hostAccess_stops hbad v (s.tick.setQueue q)
  refine ⟨f, ?_⟩
  rcases hq with hq | hq
  · exact (step_access hturn hq).trans hread
  · exact (step_access hturn hq).trans hwrite

@[simp] theorem readWord_setQueue (s : State) (q : List HostAction) (off : Nat) :
    readWord (s.setQueue q) off = readWord s off := rfl

@[simp] theorem wordHeld_setQueue (s : State) (q : List HostAction) (off : Nat) :
    wordHeld (s.setQueue q) off = wordHeld s off := rfl

/-- R40, R42, R49: what an aligned 32-bit read of an idle core gives. -/
theorem step_read_idle {s : State} {off : BitVec 10} {q : List HostAction} (hidle : s.pending = none)
    (halign : off.toNat % 4 = 0) (hq : s.queue = .access (.read off 4) :: q) :
    step s = .next (((s.setQueue q).recordUnless (wordHeld s off.toNat) .hostReadBottom).respond
      (.data (readWord s off.toNat))) := by
  rw [step_access_idle hidle hq]
  simp [hostAccess, hostRead, hidle, halign]

/-- R42, R48: what an aligned 32-bit write of an idle core to any register but CMD does. -/
theorem step_write_idle {s : State} {off : BitVec 10} {v : Word} {q : List HostAction} (hidle : s.pending = none)
    (halign : off.toNat % 4 = 0) (hcmd : off ≠ cmdOffset) (hq : s.queue = .access (.write off 4 v) :: q) :
    step s = .next ((writeWord (s.setQueue q) off.toNat v).respond .written) := by
  rw [step_access_idle hidle hq]
  simp [hostAccess, hostWrite, hidle, halign, hcmd]

theorem off_ne_cmdOffset {off : BitVec 10} (h : 0x048 ≤ off.toNat) : off ≠ cmdOffset := by
  rintro rfl
  exact absurd h (by decide)

/-- R41, R48: byte 3 of BYTEOPS and every byte of a reserved offset read 0. -/
theorem windowByte_reserved (s : State) {a : Nat} (h : a = 0x043 ∨ (0x04C ≤ a ∧ a < 0x050) ∨ 0x140 ≤ a) :
    windowByte s a = .value 0 := by
  rcases locate_cases a with ⟨i, g, -⟩ | ⟨i, g, -⟩ | ⟨i, g, -⟩ | ⟨g, -⟩ | ⟨g, -⟩ | ⟨g, -⟩ | ⟨j, g, -⟩ | ⟨j, g, -⟩ |
    ⟨i, j, g, -⟩ | ⟨-, e⟩
  iterate 9 omega
  rw [windowByte, e, readLoc]

theorem readWord_reserved (s : State) {off : Nat} (halign : off % 4 = 0) (h : off = 0x04C ∨ 0x140 ≤ off) :
    readWord s off = 0 ∧ wordHeld s off = true :=
  readWord_held (windowByte_reserved s (by omega)) (windowByte_reserved s (by omega))
    (windowByte_reserved s (by omega)) (windowByte_reserved s (by omega))

/-- R29: no field of STATUS reaches a reserved bit; the mask is checked against each field by itself. -/
theorem statusWord_reservedBits (t : Status) : statusWord t &&& 0xF00EF8FE#32 = 0 := by
  have ksNr : ∀ x : BitVec 4, x.setWidth 32 <<< 24 &&& 0xF00EF8FE#32 = 0 := by decide
  have ksNk : ∀ x : BitVec 4, x.setWidth 32 <<< 20 &&& 0xF00EF8FE#32 = 0 := by decide
  have ksv : ∀ x : Bool, (BitVec.ofBool x).setWidth 32 <<< 16 &&& 0xF00EF8FE#32 = 0 := by decide
  have err : ∀ x : BitVec 3, x.setWidth 32 <<< 8 &&& 0xF00EF8FE#32 = 0 := by decide
  have busy : ∀ x : Bool, (BitVec.ofBool x).setWidth 32 &&& 0xF00EF8FE#32 = 0 := by decide
  simp only [statusWord, BitVec.and_or_distrib_right, ksNr, ksNk, ksv, err, busy, BitVec.or_self]

/-- R48: a write to a read-only register or a reserved offset changes nothing but the bus. -/
theorem step_write_readOnly {s : State} {off : BitVec 10} {v : Word} {q : List HostAction} (hidle : s.pending = none)
    (halign : off.toNat % 4 = 0) (hoff : 0x048 ≤ off.toNat) (hq : s.queue = .access (.write off 4 v) :: q) :
    step s = .next ((s.setQueue q).respond .written) := by
  rw [step_write_idle hidle halign (off_ne_cmdOffset hoff) hq, writeWord_readOnly _ _ (by omega)]

/-- R41, R48: a read of a reserved offset returns 0, records no model fault, and changes nothing but the bus. -/
theorem step_read_reserved {s : State} {off : BitVec 10} {q : List HostAction} (hidle : s.pending = none)
    (halign : off.toNat % 4 = 0) (hoff : off.toNat = 0x04C ∨ 0x140 ≤ off.toNat)
    (hq : s.queue = .access (.read off 4) :: q) :
    step s = .next ((s.setQueue q).respond (.data 0)) := by
  obtain ⟨hword, hheld⟩ := readWord_reserved s halign hoff
  rw [step_read_idle hidle halign hq, hword, hheld, State.recordUnless_true]

/-- Settles O37: the write rules, the read rule of a reserved offset, and the reserved byte and bits. -/
theorem readOnlyAndReservedOffsets : Obligations.ReadOnlyAndReservedOffsets := by
  refine ⟨?readOnlyWrite, ?byteopsWrite, ?reservedRead, ?byteopsByte3, statusWord_reservedBits⟩
  case readOnlyWrite =>
    intro s off v q hidle halign hoff hq
    exact step_write_readOnly hidle halign hoff hq
  case byteopsWrite =>
    intro s v q hidle hq
    refine ⟨_, step_write_idle hidle (by decide) (by decide) hq, ?_, ?_, rfl⟩ <;> simp
  case reservedRead =>
    intro s off q hidle halign hoff hq
    exact step_read_reserved hidle halign (hoff.imp_left (congrArg BitVec.toNat)) hq
  case byteopsByte3 =>
    intro s
    exact windowByte_reserved s (.inl rfl)

end Sys2Proof.Proofs
end

section
/-! PROOFS. The command word (30_encoding.md R60 to R70): its fields as shifts and masks, what the decoder answers by OP and the reserved bits, and the step of an illegal word. -/

namespace Sys2Proof.Proofs

open Sys2Proof.Machine

/-- Bits `[start+len-1:start]` of a word, read as a number, are the word shifted down and masked. -/
theorem toNat_extractLsb'_eq_shift_and (v : Word) (start : Nat) {len : Nat} (hlen : len ≤ 32) :
    (v.extractLsb' start len).toNat = ((v >>> start) &&& BitVec.ofNat 32 (2 ^ len - 1)).toNat := by
  have hmask : 2 ^ len - 1 < 2 ^ 32 := by
    have := Nat.pow_le_pow_right (n := 2) (by decide) hlen
    omega
  rw [BitVec.extractLsb'_toNat, BitVec.toNat_and, BitVec.toNat_ofNat, Nat.mod_eq_of_lt hmask,
    Nat.and_two_pow_sub_one_eq_mod, BitVec.toNat_ushiftRight]

/-- OP is `cmd[3:0]` (R61). -/
theorem opField_toNat (cmd : Word) : (opField cmd).toNat = (cmd &&& 0xF#32).toNat := by
  rw [opField, toNat_extractLsb'_eq_shift_and cmd 0 (by decide), BitVec.ushiftRight_zero]
  rfl

/-- RND is `cmd[7:4]` (R62). -/
theorem rndField_toNat (cmd : Word) : (rndField cmd).toNat = ((cmd >>> 4) &&& 0xF#32).toNat :=
  toNat_extractLsb'_eq_shift_and cmd 4 (by decide)

/-- SLEN is `cmd[13:8]` (R63). -/
theorem slenField_toNat (cmd : Word) : (slenField cmd).toNat = ((cmd >>> 8) &&& 0x3F#32).toNat :=
  toNat_extractLsb'_eq_shift_and cmd 8 (by decide)

/-- KLEN is `cmd[21:16]` (R63). -/
theorem klenField_toNat (cmd : Word) : (klenField cmd).toNat = ((cmd >>> 16) &&& 0x3F#32).toNat :=
  toNat_extractLsb'_eq_shift_and cmd 16 (by decide)

/-- The bits `[start+len-1:start]` of a word are 0 exactly if the word has no bit under their mask. -/
theorem extractLsb'_eq_zero_iff (v : Word) (start len : Nat) :
    v.extractLsb' start len = 0#len ↔ v &&& ((BitVec.allOnes len).setWidth 32 <<< start) = 0#32 := by
  have hbit (i : Nat) : (v.extractLsb' start len).getLsbD i =
      (v &&& ((BitVec.allOnes len).setWidth 32 <<< start)).getLsbD (start + i) := by
    by_cases hi : start + i < 32
    · simp [hi, Bool.and_comm]
    · simp [hi, BitVec.getLsbD_of_ge v (start + i) (Nat.le_of_not_lt hi)]
  refine ⟨fun h => BitVec.eq_of_getLsbD_eq fun i _ => ?masked, fun h => BitVec.eq_of_getLsbD_eq fun i _ => ?field⟩
  case masked =>
    by_cases hs : i < start
    · simp [hs]
    · obtain ⟨j, rfl⟩ := Nat.exists_eq_add_of_le (Nat.le_of_not_lt hs)
      rw [← hbit, h, BitVec.getLsbD_zero, BitVec.getLsbD_zero]
  case field => rw [hbit, h, BitVec.getLsbD_zero, BitVec.getLsbD_zero]

/-- The reserved bits are those under the mask 0xFFC0C000 (R64). -/
theorem reservedSet_eq_false_iff (cmd : Word) : reservedSet cmd = false ↔ cmd &&& 0xFFC0C000#32 = 0 := by
  have hmask : 0xFFC0C000#32 = (BitVec.allOnes 2).setWidth 32 <<< 14 ||| (BitVec.allOnes 10).setWidth 32 <<< 22 := by
    decide
  rw [hmask, BitVec.and_or_distrib_left, BitVec.ofNat_eq_ofNat, BitVec.or_eq_zero_iff, ← extractLsb'_eq_zero_iff,
    ← extractLsb'_eq_zero_iff]
  simp [reservedSet]

/-- A word without reserved bits decodes by its opcode, with its fields as operands (R70). -/
theorem decode_unreserved {cmd : Word} (h : cmd &&& 0xFFC0C000#32 = 0) :
    decode cmd = decodeOp (cmd &&& 0xF#32).toNat ((cmd >>> 4) &&& 0xF#32).toNat ((cmd >>> 8) &&& 0x3F#32).toNat
      ((cmd >>> 16) &&& 0x3F#32).toNat := by
  simp only [decode, (reservedSet_eq_false_iff cmd).mpr h, Bool.false_eq_true, if_false, opField_toNat, rndField_toNat,
    slenField_toNat, klenField_toNat]

/-- A word with a reserved bit is illegal, whatever its opcode (R64). -/
theorem decode_reserved {cmd : Word} (h : cmd &&& 0xFFC0C000#32 ≠ 0) : decode cmd = .illegal .reservedBits :=
  if_pos (Bool.of_not_eq_false (mt (reservedSet_eq_false_iff cmd).mp h))

/-- Opcodes 0x0 and from 0x9 on are no commands (R68). -/
theorem decodeOp_illegal {op : Nat} (h : op = 0 ∨ 9 ≤ op) (rnd slen klen : Nat) :
    decodeOp op rnd slen klen = .illegal (.reservedOpcode op) := by
  rcases h with rfl | h
  · rfl
  · obtain ⟨n, rfl⟩ := Nat.exists_eq_add_of_le' h
    rfl

/-- Every word that R68 lists is illegal. -/
theorem decode_illegal {cmd : Word}
    (h : (cmd &&& 0xF#32).toNat = 0 ∨ 9 ≤ (cmd &&& 0xF#32).toNat ∨ cmd &&& 0xFFC0C000#32 ≠ 0) :
    ∃ why, decode cmd = .illegal why := by
  by_cases hres : cmd &&& 0xFFC0C000#32 = 0
  · have hop := h.imp_right (Or.resolve_right · (not_not_intro hres))
    exact ⟨_, (decode_unreserved hres).trans (decodeOp_illegal hop _ _ _)⟩
  · exact ⟨_, decode_reserved hres⟩

/-- The mask of R66 takes the reserved bits and OP. -/
theorem and_patternMask (cmd : Word) : cmd &&& 0xFFC0C00F#32 = (cmd &&& 0xFFC0C000#32) ||| (cmd &&& 0xF#32) :=
  BitVec.and_or_distrib_left (x := cmd) (y := 0xFFC0C000#32) (z := 0xF#32)

/-- R66: a word that matches the pattern of an opcode decodes by that opcode, with its fields as operands. -/
theorem decode_of_match {cmd : Word} {op : Nat} (hop : op < 16) (h : cmd &&& 0xFFC0C00F#32 = BitVec.ofNat 32 op) :
    decode cmd = decodeOp op ((cmd >>> 4) &&& 0xF#32).toNat ((cmd >>> 8) &&& 0x3F#32).toNat
      ((cmd >>> 16) &&& 0x3F#32).toNat := by
  have restrict (m : Word) (hm : 0xFFC0C00F#32 &&& m = m) : cmd &&& m = BitVec.ofNat 32 op &&& m := by
    rw [← h, BitVec.and_assoc, hm]
  have hopcode : ∀ n : Fin 16, BitVec.ofNat 32 n &&& 0xFFC0C000#32 = 0 ∧ (BitVec.ofNat 32 n &&& 0xF#32).toNat = n := by
    decide
  obtain ⟨hres, hlow⟩ := hopcode ⟨op, hop⟩
  rw [decode_unreserved ((restrict _ (by decide)).trans hres), restrict 0xF#32 (by decide), hlow]

/-- R66: a word that matches the pattern of no legal opcode is illegal. -/
theorem decode_of_noMatch {cmd : Word} (h : cmd &&& 0xFFC0C00F#32 = 0 ∨ 9 ≤ (cmd &&& 0xFFC0C00F#32).toNat) :
    ∃ why, decode cmd = .illegal why := by
  by_cases hres : cmd &&& 0xFFC0C000#32 = 0
  · rw [and_patternMask, hres, BitVec.ofNat_eq_ofNat, BitVec.zero_or] at h
    exact decode_illegal (h.imp (congrArg BitVec.toNat) .inl)
  · exact ⟨_, decode_reserved hres⟩

/-- Settles O4: each legal opcode by `decode_of_match`, the other words by `decode_of_noMatch`. -/
theorem opcodePatternsAndFields : Obligations.OpcodePatternsAndFields := by
  intro cmd
  refine ⟨?gfmul, ?sbox, ?subbytes, ?shiftrows, ?mixcolumns, ?addroundkey, ?expandkey, ?loadrk, decode_of_noMatch⟩
  case gfmul => exact decode_of_match (op := 1) (by decide)
  case sbox => exact decode_of_match (op := 2) (by decide)
  case subbytes => exact decode_of_match (op := 3) (by decide)
  case shiftrows => exact decode_of_match (op := 4) (by decide)
  case mixcolumns => exact decode_of_match (op := 5) (by decide)
  case addroundkey => exact decode_of_match (op := 6) (by decide)
  case expandkey => exact decode_of_match (op := 7) (by decide)
  case loadrk => exact decode_of_match (op := 8) (by decide)

/-- Settles O31: the core's step is due, and `coreStep_illegal` says what it does with a word that does not decode. -/
theorem stepIllegalCommand : Obligations.StepIllegalCommand := by
  intro s cmd hpending hwait hreset hcmd
  obtain ⟨why, hdecode⟩ := decode_illegal hcmd
  rw [step_core hpending hwait hreset, coreStep_illegal s hdecode]
  rfl

/-- R67: the line `LOADRK r` for each round index. -/
theorem loadrk_canonicalWord (r : Fin 16) :
    assemble (.loadrk r) = 0x00000008#32 ||| (BitVec.ofNat 32 r.val <<< 4) ∧
      decode (0x00000008#32 ||| (BitVec.ofNat 32 r.val <<< 4)) = .command (.loadrk r) := by
  revert r
  decide

/-- Settles O1: each line of R67's table is evaluated, LOADRK at each of its 16 operands. -/
theorem canonicalWordsDecode : Obligations.CanonicalWordsDecode := by
  refine ⟨?gfmul, ?sbox, ?subbytes, ?shiftrows, ?mixcolumns, ?addroundkey, ?expandkey16, ?expandkey24, ?expandkey32,
    loadrk_canonicalWord⟩ <;> decide

end Sys2Proof.Proofs
end

section
/-! PROOFS. The GF(2^8) multiplier is additive in each factor, so that its laws need only be checked at the powers of 2 (40_gf_multiply.md R82, R84). -/

namespace Sys2Proof.Proofs

open Sys2Proof.Machine

/- ---- Bit vectors are XORs of powers of 2 ---- -/

theorem setWidth_succ_eq_xor {w : Nat} (x : BitVec w) (n : Nat) :
    (x.setWidth (n + 1)).setWidth w = (x.setWidth n).setWidth w ^^^ (x &&& BitVec.twoPow w n) := by
  refine BitVec.eq_of_getLsbD_eq fun i hi => ?_
  simp only [BitVec.getLsbD_xor, BitVec.getLsbD_and, BitVec.getLsbD_setWidth, BitVec.getLsbD_twoPow, hi, decide_true,
    Bool.true_and]
  rcases lt_trichotomy i n with h | rfl | h
  · simp [h, h.ne', Nat.lt_succ_of_lt h]
  · simp [hi]
  · simp [h.ne, Nat.not_lt_of_gt h, show ¬ i < n + 1 by omega]

/-- What holds of 0 and of the powers of 2, and is kept by XOR, holds of every bit vector. -/
theorem xor_induction {w : Nat} {P : BitVec w → Prop} (zero : P 0#w) (xor : ∀ x y, P x → P y → P (x ^^^ y))
    (twoPow : ∀ i < w, P (BitVec.twoPow w i)) (x : BitVec w) : P x := by
  have low (n : Nat) (hn : n ≤ w) : P ((x.setWidth n).setWidth w) := by
    induction n with
    | zero => simpa [BitVec.eq_nil (x.setWidth 0)] using zero
    | succ n ih =>
      rw [setWidth_succ_eq_xor, BitVec.and_twoPow]
      refine xor _ _ (ih (by omega)) ?_
      split
      · exact twoPow n (by omega)
      · exact zero
  simpa using low w le_rfl

/-- An additive function of bytes is determined by its values at the powers of 2. -/
theorem eq_of_eq_at_twoPow {f g : Byte → Byte} (hf : ∀ x y, f (x ^^^ y) = f x ^^^ f y)
    (hg : ∀ x y, g (x ^^^ y) = g x ^^^ g y) (h : ∀ i < 8, f (BitVec.twoPow 8 i) = g (BitVec.twoPow 8 i)) (x : Byte) :
    f x = g x := by
  have map_zero {k : Byte → Byte} (hk : ∀ x y, k (x ^^^ y) = k x ^^^ k y) : k 0 = 0 := by
    simpa using hk 0 0
  induction x using xor_induction with
  | zero => exact (map_zero hf).trans (map_zero hg).symm
  | xor x y hx hy => rw [hf, hg, hx, hy]
  | twoPow i hi => exact h i hi

/- ---- Doubling ---- -/

/-- A byte taken or not, at the XOR of two bits. -/
theorem ite_xor_eq (p q : Bool) (a : Byte) :
    (if (p ^^ q) = true then a else 0) = (if p then a else 0) ^^^ (if q then a else 0) := by
  cases p <;> cases q <;> simp

theorem and_0x80_ne_zero (a : Byte) : a &&& 0x80 ≠ 0 ↔ a.getLsbD 7 = true := by
  have mask : (0x80 : Byte) = BitVec.twoPow 8 7 := by decide
  rw [mask, BitVec.and_twoPow]
  cases a.getLsbD 7 <;> decide

theorem double_eq_xor (a : Byte) : double a = (a <<< 1) ^^^ (if a &&& 0x80 ≠ 0 then 0x1B else 0x00) := by
  unfold double
  split <;> simp

theorem double_xor (a a' : Byte) : double (a ^^^ a') = double a ^^^ double a' := by
  simp only [double_eq_xor, and_0x80_ne_zero, BitVec.getLsbD_xor, BitVec.shiftLeft_xor_distrib]
  rw [ite_xor_eq]
  ac_rfl

/-- Below bit 7 the powers of 2 are the doublings of 1. -/
theorem iterate_double_one {i : Nat} (h : i < 8) : double^[i] 1 = BitVec.twoPow 8 i := by
  revert i
  decide

/- ---- The loop, and the multiplier ---- -/

theorem and_one_eq_one (b : Byte) : b &&& 0x01 = 1 ↔ b.getLsbD 0 = true := by
  have mask : (0x01 : Byte) = BitVec.twoPow 8 0 := by decide
  rw [mask, BitVec.and_twoPow]
  cases b.getLsbD 0 <;> decide

/-- One iteration of the loop, which tests bit 0 of `b` (R80). -/
theorem gfLoop_succ (n : Nat) (a b acc : Byte) :
    gfLoop (n + 1) a b acc = gfLoop n (double a) (b >>> 1) (acc ^^^ if b.getLsbD 0 then a else 0) := by
  simp only [gfLoop, and_one_eq_one]
  cases b.getLsbD 0 <;> simp

theorem gfLoop_zero_right (n : Nat) (a acc : Byte) : gfLoop n a 0 acc = acc := by
  induction n generalizing a with
  | zero => rfl
  | succ n ih => simpa [gfLoop_succ] using ih (double a)

theorem gfLoop_xor_left (n : Nat) (a a' b acc acc' : Byte) :
    gfLoop n (a ^^^ a') b (acc ^^^ acc') = gfLoop n a b acc ^^^ gfLoop n a' b acc' := by
  induction n generalizing a a' b acc acc' with
  | zero => rfl
  | succ n ih =>
    simp only [gfLoop_succ, double_xor, ← ih]
    congr 1
    split
    · ac_rfl
    · simp

theorem gfLoop_xor_right (n : Nat) (a b b' acc acc' : Byte) :
    gfLoop n a (b ^^^ b') (acc ^^^ acc') = gfLoop n a b acc ^^^ gfLoop n a b' acc' := by
  induction n generalizing a b b' acc acc' with
  | zero => rfl
  | succ n ih =>
    simp only [gfLoop_succ, BitVec.ushiftRight_xor_distrib, BitVec.getLsbD_xor, ite_xor_eq, ← ih]
    congr 1
    ac_rfl

theorem twoPow_succ_ushiftRight {i : Nat} (h : i < 7) : BitVec.twoPow 8 (i + 1) >>> 1 = BitVec.twoPow 8 i := by
  revert i
  decide

/-- Of the factor `2 ^ i` the loop sees one bit, in the iteration in which the running `a` has been doubled `i` times. -/
theorem gfLoop_twoPow {i n : Nat} (hi : i < 8) (hn : i < n) (a : Byte) :
    gfLoop n a (BitVec.twoPow 8 i) 0 = double^[i] a := by
  induction i generalizing n a with
  | zero =>
    obtain ⟨n, rfl⟩ := Nat.exists_eq_add_one.mpr hn
    have shifted : BitVec.twoPow 8 0 >>> 1 = 0 := by decide
    simpa [gfLoop_succ, shifted] using gfLoop_zero_right n (double a) a
  | succ i ih =>
    obtain ⟨n, rfl⟩ := Nat.exists_eq_add_one.mpr (Nat.zero_lt_of_lt hn)
    simpa [gfLoop_succ, twoPow_succ_ushiftRight (show i < 7 by omega), BitVec.getLsbD_twoPow] using ih (by omega) (by omega) (double a)

theorem gfMultiply_xor_left (a a' b : Byte) : gfMultiply (a ^^^ a') b = gfMultiply a b ^^^ gfMultiply a' b :=
  gfLoop_xor_left 8 a a' b 0 0

/-- R122: the multiplier distributes over XOR. -/
theorem gfMultiply_xor_right (a b b' : Byte) : gfMultiply a (b ^^^ b') = gfMultiply a b ^^^ gfMultiply a b' :=
  gfLoop_xor_right 8 a b b' 0 0

theorem gfMultiply_twoPow {i : Nat} (h : i < 8) (a : Byte) : gfMultiply a (BitVec.twoPow 8 i) = double^[i] a :=
  gfLoop_twoPow h h a

theorem gfMultiply_zero (a : Byte) : gfMultiply a 0 = 0 := gfLoop_zero_right 8 a 0

theorem gfMultiply_one (a : Byte) : gfMultiply a 1 = a := gfMultiply_twoPow (i := 0) (by decide) a

theorem gfMultiply_two (a : Byte) : gfMultiply a 2 = double a := gfMultiply_twoPow (i := 1) (by decide) a

theorem gfMultiply_three (a : Byte) : gfMultiply a 3 = gfMultiply a 2 ^^^ a := by
  rw [show (3 : Byte) = 2 ^^^ 1 by decide, gfMultiply_xor_right, gfMultiply_one]

/-- Commutativity at two powers of 2: either product is 1 doubled `i + j` times. -/
theorem gfMultiply_twoPow_twoPow {i j : Nat} (hi : i < 8) (hj : j < 8) :
    gfMultiply (BitVec.twoPow 8 i) (BitVec.twoPow 8 j) = double^[i + j] 1 := by
  rw [gfMultiply_twoPow hj, ← iterate_double_one hi, ← Function.iterate_add_apply, Nat.add_comm]

theorem gfMultiply_comm (a b : Byte) : gfMultiply a b = gfMultiply b a := by
  refine eq_of_eq_at_twoPow (f := (gfMultiply · b)) (g := gfMultiply b) (gfMultiply_xor_left · · b)
    (gfMultiply_xor_right b) (fun i hi => ?_) a
  refine eq_of_eq_at_twoPow (f := gfMultiply (.twoPow 8 i)) (g := (gfMultiply · (.twoPow 8 i)))
    (gfMultiply_xor_right _) (gfMultiply_xor_left · · _) (fun j hj => ?_) b
  rw [gfMultiply_twoPow_twoPow hi hj, gfMultiply_twoPow_twoPow hj hi, Nat.add_comm]

/-- Settles O7: the factors 1 and 0 are read off the loop, commutativity is additivity in each factor and `gfMultiply_twoPow_twoPow`. -/
theorem multiplyLaws : Obligations.MultiplyLaws := ⟨gfMultiply_one, gfMultiply_zero, gfMultiply_comm⟩

theorem mixMatrix_entry (i k : Fin 4) : mixMatrix[i][k] = 1 ∨ mixMatrix[i][k] = 2 ∨ mixMatrix[i][k] = 3 := by
  revert i k
  decide

/-- R142: the recurrence of the round constants. -/
theorem rcon_succ_eq_double (k : Fin 9) : (rcon (k.val + 2))[0] = double (rcon (k.val + 1))[0] := by
  revert k
  decide

/-- Settles O8: 2 is a power of 2 and 3 is `2 ^^^ 1`; the entries of the two tables are looked at one by one. -/
theorem doublingAndTripling : Obligations.DoublingAndTripling := by
  refine ⟨fun v => ⟨?double, gfMultiply_three v⟩, mixMatrix_entry, fun k => ?rcon⟩
  case double => rw [gfMultiply_two, double_eq_xor]
  case rcon => rw [gfMultiply_two, rcon_succ_eq_double]

end Sys2Proof.Proofs
end

section
/-! PROOFS. Multiplication by a fixed byte can be undone where a product is 1, and the S-box table is the affine map of that inverse (41_substitution.md R90, R91, R95). -/

namespace Sys2Proof.Proofs

open Sys2Proof.Machine

/- ---- Associativity, and inverses are unique ---- -/

theorem gfMultiply_double_left (a b : Byte) : gfMultiply (double a) b = double (gfMultiply a b) := by
  refine eq_of_eq_at_twoPow (f := gfMultiply (double a)) (g := fun b => double (gfMultiply a b))
    (gfMultiply_xor_right _) (fun x y => ?additive) (fun i hi => ?twoPow) b
  case additive => simp only [gfMultiply_xor_right, double_xor]
  case twoPow =>
    rw [gfMultiply_twoPow hi, gfMultiply_twoPow hi, ← Function.iterate_succ_apply,
      Function.iterate_succ_apply']

theorem gfMultiply_double_right (a b : Byte) : gfMultiply a (double b) = double (gfMultiply a b) := by
  rw [gfMultiply_comm, gfMultiply_double_left, gfMultiply_comm]

theorem gfMultiply_assoc (a b c : Byte) : gfMultiply (gfMultiply a b) c = gfMultiply a (gfMultiply b c) := by
  refine eq_of_eq_at_twoPow (f := gfMultiply (gfMultiply a b)) (g := fun c => gfMultiply a (gfMultiply b c))
    (gfMultiply_xor_right _) (fun x y => ?additive) (fun i hi => ?twoPow) c
  case additive => simp only [gfMultiply_xor_right]
  case twoPow =>
    have commutes : Function.Semiconj (gfMultiply a) double double := gfMultiply_double_right a
    rw [gfMultiply_twoPow hi, gfMultiply_twoPow hi, commutes.iterate_right i]

theorem inverse_unique {b c d : Byte} (hc : gfMultiply b c = 1) (hd : gfMultiply b d = 1) : c = d := by
  calc c = gfMultiply c (gfMultiply b d) := by rw [hd, gfMultiply_one]
    _ = gfMultiply (gfMultiply b c) d := by rw [← gfMultiply_assoc, gfMultiply_comm c]
    _ = d := by rw [hc, gfMultiply_comm, gfMultiply_one]

/- ---- The affine map ---- -/

/-- The affine map of R91: the XOR of five rotations and the constant 0x63. -/
def affine (c : Byte) : Byte :=
  c ^^^ c.rotateLeft 4 ^^^ c.rotateLeft 3 ^^^ c.rotateLeft 2 ^^^ c.rotateLeft 1 ^^^ 0x63

theorem getLsbD_rotateLeft_mod (c : Byte) {k : Nat} (hk : 0 < k ∧ k < 8) (i : Fin 8) :
    (c.rotateLeft k).getLsbD i = c.getLsbD ((i + (8 - k)) % 8) := by
  rw [BitVec.getLsbD_rotateLeft, Nat.mod_eq_of_lt hk.2]
  by_cases h : i.val < k
  · simp [h, show (i.val + (8 - k)) % 8 = 8 - k + i.val by omega]
  · simp [h, show (i.val + (8 - k)) % 8 = i.val - k by omega]

theorem affine_getLsbD (c : Byte) (i : Fin 8) :
    (affine c).getLsbD i =
      (c.getLsbD i ^^ c.getLsbD ((i.val + 4) % 8) ^^ c.getLsbD ((i.val + 5) % 8) ^^ c.getLsbD ((i.val + 6) % 8) ^^
        c.getLsbD ((i.val + 7) % 8) ^^ (0x63#8).getLsbD i) := by
  simp (disch := decide) only [affine, BitVec.getLsbD_xor, getLsbD_rotateLeft_mod, Nat.reduceSub, BitVec.ofNat_eq_ofNat]

/- ---- The table ---- -/

/-- The inverse of `b` as the table holds it: its entry with the affine map undone. -/
def tableInverse (b : Byte) : Byte :=
  (subByte b).rotateLeft 1 ^^^ (subByte b).rotateLeft 3 ^^^ (subByte b).rotateLeft 6 ^^^ 0x05

/-- R91's construction, checked at each of the 256 entries of R90's table. Later lemmas read no entry but that of 0. -/
theorem subByte_entry (b : Byte) :
    affine (tableInverse b) = subByte b ∧ gfMultiply b (tableInverse b) = if b = 0 then 0 else 1 := by
  revert b
  decide +kernel

theorem affine_tableInverse (b : Byte) : affine (tableInverse b) = subByte b := (subByte_entry b).1

theorem gfMultiply_tableInverse {b : Byte} (h : b ≠ 0) : gfMultiply b (tableInverse b) = 1 := by
  rw [(subByte_entry b).2, if_neg h]

theorem tableInverse_zero : tableInverse 0 = 0 := by decide

theorem ne_zero_of_gfMultiply_eq_one {b c : Byte} (h : gfMultiply b c = 1) : b ≠ 0 := by
  rintro rfl
  rw [gfMultiply_comm, gfMultiply_zero] at h
  exact absurd h (by decide)

theorem eq_tableInverse {b c : Byte} (h : gfMultiply b c = 1 ∨ (b = 0 ∧ c = 0)) : c = tableInverse b := by
  obtain hinv | ⟨rfl, rfl⟩ := h
  · exact inverse_unique hinv (gfMultiply_tableInverse (ne_zero_of_gfMultiply_eq_one hinv))
  · exact tableInverse_zero.symm

/-- Settles O10: `subByte_entry` gives each byte one inverse whose affine image is its entry, and by `eq_tableInverse` there is no other. -/
theorem sboxIsAffineInverse : Obligations.SboxIsAffineInverse := by
  refine ⟨fun b hb => ⟨tableInverse b, gfMultiply_tableInverse hb⟩, fun b c h i => ?_⟩
  rw [eq_tableInverse h, ← affine_tableInverse, affine_getLsbD]

theorem tableInverse_involutive : Function.Involutive tableInverse := by
  intro b
  refine (eq_tableInverse ?_).symm
  by_cases h : b = 0
  · exact .inr ⟨by rw [h, tableInverse_zero], h⟩
  · exact .inl (by rw [gfMultiply_comm, gfMultiply_tableInverse h])

/-- Two bytes with one table entry have one inverse, and inverting it again gives back either byte. -/
theorem subByte_injective : Function.Injective subByte := by
  intro a b h
  have same : tableInverse a = tableInverse b := by simp only [tableInverse, h]
  exact tableInverse_involutive.injective same

/-- Settles O9: `subByte_injective`, and an injective map of a finite set into itself is bijective. -/
theorem sboxIsPermutation : Obligations.SboxIsPermutation :=
  ⟨Finite.injective_iff_bijective.mp subByte_injective, by decide⟩

end Sys2Proof.Proofs
end

section
/-! PROOFS. ShiftRows as a map of the 4×4 byte matrix (42_shift_rows.md R110, R112, R113). -/

namespace Sys2Proof.Proofs

open Sys2Proof.Machine

/-- The byte of a block at row `r` and column `c` (R16). -/
def entry (s : Block) (r c : Fin 4) : Byte := s[r.val + 4 * c.val]'(by omega)

theorem getElem_eq_entry (s : Block) {j : Nat} (h : j < 16) :
    s[j] = entry s ⟨j % 4, by omega⟩ ⟨j / 4, by omega⟩ := by
  simp only [entry, Nat.mod_add_div]

/-- A block is determined by its 4×4 matrix. -/
theorem block_ext {s t : Block} (h : ∀ r c, entry s r c = entry t r c) : s = t := by
  ext j hj : 1
  rw [getElem_eq_entry s hj, getElem_eq_entry t hj, h]

@[simp] theorem entry_tabulate (f : Fin 16 → Byte) (r c : Fin 4) :
    entry (tabulate f) r c = f ⟨r.val + 4 * c.val, by omega⟩ := tabulate_getElem f _ _

/-- R110: row `r` is rotated left by `r`; the sum of columns is taken in `Fin 4`, so modulo 4. -/
theorem entry_shiftRows (s : Block) (r c : Fin 4) : entry (shiftRows s) r c = entry s r (c + r) := by
  have row_eq : (r.val + 4 * c.val) % 4 = r.val := by omega
  have column_eq : (r.val + 4 * c.val) / 4 = c.val := by omega
  rw [shiftRows, entry_tabulate]
  simp only [row_eq, column_eq, entry, Fin.val_add]

/-- Each application rotates row `r` by `r` more. -/
theorem entry_shiftRows_iterate (n : Nat) (s : Block) (r c : Fin 4) :
    entry (shiftRows^[n] s) r c = entry s r (c + n • r) := by
  induction n generalizing s with
  | zero => rw [Function.iterate_zero_apply, zero_nsmul, add_zero]
  | succ n ih => rw [Function.iterate_succ_apply, ih, entry_shiftRows, succ_nsmul, add_assoc]

/-- R113: four rotations by `r` are none. -/
theorem shiftRows_iterate_four (s : Block) : shiftRows^[4] s = s := by
  have fourTimes : ∀ r : Fin 4, 4 • r = 0 := by decide
  refine block_ext fun r c => ?_
  rw [entry_shiftRows_iterate, fourTimes, add_zero]

/-- R112: the source's example, `A`..`P` to `AFKPEJODINCHMBGL`. -/
theorem shiftRows_letters :
    shiftRows (tabulate fun i => BitVec.ofNat 8 (0x41 + i.val)) =
      #v[0x41, 0x46, 0x4b, 0x50, 0x45, 0x4a, 0x4f, 0x44, 0x49, 0x4e, 0x43, 0x48, 0x4d, 0x42, 0x47, 0x4c] := by
  refine block_ext fun r c => ?_
  rw [entry_shiftRows, entry_tabulate]
  revert r c
  decide

/-- Settles O11: the rotation is `entry_shiftRows`, and its period follows from the rotation of the iterates. -/
theorem shiftRowsRotatesRows : Obligations.ShiftRowsRotatesRows :=
  ⟨entry_shiftRows, shiftRows_letters, shiftRows_iterate_four⟩

end Sys2Proof.Proofs
end

section
/-! PROOFS. MixColumns as a matrix product that is additive in the column (43_mix_columns.md R120, R122). -/

namespace Sys2Proof.Proofs

open Sys2Proof.Machine

/- ---- The matrix product ---- -/

@[simp] theorem gfMultiply_one_left (a : Byte) : gfMultiply 1#8 a = a :=
  (gfMultiply_comm 1 a).trans (gfMultiply_one a)

theorem mixEntry_column (row : KWord) (s : Block) (c : Fin 4) :
    mixEntry row (column s c) =
      gfMultiply row[0] (s[4 * c.val]'(by omega)) ^^^ gfMultiply row[1] (s[4 * c.val + 1]'(by omega)) ^^^
        gfMultiply row[2] (s[4 * c.val + 2]'(by omega)) ^^^ gfMultiply row[3] (s[4 * c.val + 3]'(by omega)) := by
  simp only [mixEntry, column, tabulate_getElem, Nat.add_zero]

/-- R120: row `r` of the matrix times column `c`; no other column is read. -/
theorem entry_mixColumns (s : Block) (r c : Fin 4) :
    entry (mixColumns s) r c = mixEntry mixMatrix[r] (column s c) := by
  have row_eq : (r.val + 4 * c.val) % 4 = r.val := by omega
  have column_eq : (r.val + 4 * c.val) / 4 = c.val := by omega
  rw [mixColumns, entry_tabulate]
  simp only [row_eq, column_eq, Fin.getElem_fin]

/-- The same at the byte's place in the block (R16). -/
theorem mixColumns_getElem (s : Block) (r c : Fin 4) :
    (mixColumns s)[4 * c.val + r.val]'(by omega) = mixEntry mixMatrix[r] (column s c) := by
  rw [← entry_mixColumns]
  simp only [entry, Nat.add_comm]

/-- Settles O12: each byte is its matrix row times its column, and a factor 1 in the row leaves the byte. -/
theorem mixColumnsIsMatrixProduct : Obligations.MixColumnsIsMatrixProduct := by
  intro s c
  have product (r : Fin 4) := (mixColumns_getElem s r c).trans (mixEntry_column mixMatrix[r] s c)
  refine ⟨(product 0).trans ?_, (product 1).trans ?_, (product 2).trans ?_, (product 3).trans ?_⟩ <;>
    simp [mixMatrix]

/- ---- Linearity ---- -/

theorem entry_addRoundKey (s k : Block) (r c : Fin 4) : entry (addRoundKey s k) r c = entry s r c ^^^ entry k r c := by
  rw [addRoundKey, entry_tabulate]
  rfl

theorem column_addRoundKey (s k : Block) (c : Fin 4) :
    column (addRoundKey s k) c = xorWord (column s c) (column k c) := by
  ext i hi : 1
  simp [xorWord, column, addRoundKey]

theorem mixEntry_xorWord (row a b : KWord) : mixEntry row (xorWord a b) = mixEntry row a ^^^ mixEntry row b := by
  simp only [mixEntry, xorWord, tabulate_getElem, Fin.getElem_fin, gfMultiply_xor_right]
  ac_rfl

/-- The matrix product is additive in the column, and XOR of blocks is XOR of their columns. -/
theorem mixColumns_addRoundKey (s t : Block) :
    mixColumns (addRoundKey s t) = addRoundKey (mixColumns s) (mixColumns t) := by
  refine block_ext fun r c => ?_
  rw [entry_addRoundKey, entry_mixColumns, entry_mixColumns, entry_mixColumns, column_addRoundKey, mixEntry_xorWord]

/-- Settles O13: the multiplier is additive in its second factor, and so is each entry of the matrix product. -/
theorem mixColumnsIsLinear : Obligations.MixColumnsIsLinear := ⟨gfMultiply_xor_right, mixColumns_addRoundKey⟩

end Sys2Proof.Proofs
end

section
/-! PROOFS. AddRoundKey undoes itself (44_add_round_key.md R132). -/

namespace Sys2Proof.Proofs

open Sys2Proof.Machine

/-- Settles O14: each byte takes the XOR with the same key byte twice, and the two cancel. -/
theorem addRoundKeyIsInvolution : Obligations.AddRoundKeyIsInvolution := by
  intro s k
  refine block_ext fun r c => ?_
  calc entry (addRoundKey (addRoundKey s k) k) r c
      = entry s r c ^^^ entry k r c ^^^ entry k r c := by rw [entry_addRoundKey, entry_addRoundKey]
    _ = entry s r c := by rw [BitVec.xor_assoc, BitVec.xor_self, BitVec.xor_zero]

end Sys2Proof.Proofs
end

section
/-! PROOFS. The key expansion and the commands of the key schedule: the recurrence of the words, the round constants, and what EXPANDKEY and LOADRK leave (45_key_schedule.md R140 to R151). -/

namespace Sys2Proof.Proofs

open Sys2Proof.Machine Sys2Proof.Safety

/- ---- The word helpers, byte by byte ---- -/

theorem xorWord_getElem (a b : KWord) (j : Fin 4) : (xorWord a b)[j] = a[j] ^^^ b[j] :=
  tabulate_getElem _ _ j.isLt

theorem subWord_getElem (w : KWord) (j : Fin 4) : (subWord w)[j] = subByte w[j] :=
  tabulate_getElem _ _ j.isLt

theorem keyWord_getElem (key : List Byte) (i : Nat) (j : Fin 4) :
    (keyWord key i)[j] = key.getD (4 * i + j.val) 0 :=
  tabulate_getElem _ _ j.isLt

/-- R140: byte `j` of the rotated word is the next byte of the word, cyclically. -/
theorem rotWord_getElem (w : KWord) (j : Fin 4) :
    (rotWord w)[j] = w[(j.val + 1) % 4]'(Nat.mod_lt _ (by decide)) := by
  fin_cases j <;> rfl

theorem rcon_eq (k : Nat) : rcon k = #v[(rcon k)[0], 0, 0, 0] := rfl

/-- R142: a round constant has only byte 0. -/
theorem rcon_getElem (k : Nat) (j : Fin 4) : (rcon k)[j] = if j.val = 0 then (rcon k)[0] else 0 := by
  fin_cases j <;> rfl

/-- Byte `j` of `temp` in step 2 of R144. -/
theorem scheduleTemp_getElem (nk i : Nat) (prev : KWord) (j : Fin 4) :
    (scheduleTemp nk i prev)[j] =
      if i % nk = 0 then
        subByte (prev[(j.val + 1) % 4]'(Nat.mod_lt _ (by decide))) ^^^ (if j.val = 0 then (rcon (i / nk))[0] else 0)
      else if nk = 8 ∧ i % nk = 4 then subByte prev[j]
      else prev[j] := by
  unfold scheduleTemp
  split_ifs
  · rw [xorWord_getElem, subWord_getElem, rotWord_getElem, rcon_getElem]
  · rw [subWord_getElem]
  · rfl

/- ---- The words of the expansion ---- -/

/-- R144 step 1: the schedule begins with the words of the key. -/
theorem expandKey_getD_keyWord {nk i : Nat} (key : List Byte) (h : i < nk) :
    (expandKey nk key).getD i zeroWord = keyWord key i := by
  rw [expandKey, expandFrom_prefix _ _ _ (by simpa using h)]
  simp [List.getD, h]

/-- R144 step 2: every later word is `W[i-Nk] xor temp`. -/
theorem expandKey_getD_recurrence {nk i : Nat} (key : List Byte) (hnk : 0 < nk) (hi : nk ≤ i) (hlen : i < 4 * (nk + 7)) :
    (expandKey nk key).getD i zeroWord =
      xorWord ((expandKey nk key).getD (i - nk) zeroWord)
        (scheduleTemp nk i ((expandKey nk key).getD (i - 1) zeroWord)) := by
  refine expandFrom_recurrence _ _ _ hnk ?_ ?_ ?_ <;> simp only [List.length_map, List.length_range] <;> omega

/-- Settles O16: the length, the words of the key, and the recurrence read off byte by byte. -/
theorem expansionRecurrence : Obligations.ExpansionRecurrence := by
  intro nk key hnk _
  refine ⟨?length, fun i j hi => ?key, fun i j hi hlen => ?later⟩
  case length => rw [expandKey_length]; omega
  case key => rw [expandKey_getD_keyWord key hi, keyWord_getElem]
  case later => rw [expandKey_getD_recurrence key (by omega) hi hlen, xorWord_getElem, scheduleTemp_getElem]

/- ---- The round constants ---- -/

theorem rcon_table : ((List.range 10).map fun k => rcon (k + 1)) =
    [#v[0x01, 0, 0, 0], #v[0x02, 0, 0, 0], #v[0x04, 0, 0, 0], #v[0x08, 0, 0, 0], #v[0x10, 0, 0, 0], #v[0x20, 0, 0, 0],
     #v[0x40, 0, 0, 0], #v[0x80, 0, 0, 0], #v[0x1B, 0, 0, 0], #v[0x36, 0, 0, 0]] := rfl

/-- R142: the indices that the expansion uses. -/
theorem rconIndex_bounds {nk i : Nat} (hnk : nk = 4 ∨ nk = 6 ∨ nk = 8) (hi : nk ≤ i) (hlen : i < 4 * (nk + 7)) :
    1 ≤ i / nk ∧ i / nk ≤ (if nk = 4 then 10 else if nk = 6 then 8 else 7) := by
  rcases hnk with rfl | rfl | rfl
  · exact ⟨by omega, show i / 4 ≤ 10 by omega⟩
  · exact ⟨by omega, show i / 6 ≤ 8 by omega⟩
  · exact ⟨by omega, show i / 8 ≤ 7 by omega⟩

/-- Settles O15: the table is read off the ROM, the doubling is `rcon_succ_eq_double`, the indices are `rconIndex_bounds`. -/
theorem rconFollowsDoubling : Obligations.RconFollowsDoubling := by
  refine ⟨rcon_table, fun k => ?doubling, fun nk i => rconIndex_bounds⟩
  case doubling => rw [gfMultiply_two, ← rcon_succ_eq_double, ← rcon_eq]

/- ---- The two ways a command ends, and LOADRK ---- -/

/-- R33, R173: a command that passes its check on operands that hold values makes its writes, sets ERR 0 and records nothing. -/
theorem exec_of_operandsHeld {i : Instr} {s : State} (hcheck : check i s.status = none) (hheld : operandsHeld i s = true) :
    exec i s = .next ((commandWrites i s).setErr 0) := by
  simp only [exec_eq, commandResult, hcheck, commandEffect_held hheld]

/-- R172: a command that fails its check writes its code to ERR and nothing else. -/
theorem exec_of_check_eq_some {i : Instr} {s : State} {e : CmdError} (hcheck : check i s.status = some e) :
    exec i s = .next (s.setErr e.code) := by
  simp only [exec_eq, commandResult, hcheck]

/-- The round key of four words: byte `4m + j` is byte `j` of word `m` (R145). -/
def roundKey (w : Vector KWord 4) : Block :=
  tabulate fun k : Fin 16 => (w[k.val / 4]'(by omega))[k.val % 4]'(by omega)

theorem known_roundKey (w : Vector KWord 4) :
    known (roundKey w) = tabulate fun k : Fin 16 => .value ((w[k.val / 4]'(by omega))[k.val % 4]'(by omega)) := by
  ext1 k hk
  simp [roundKey]

/-- The operand of LOADRK is the round key of the four schedule words that it selects (R145). -/
theorem roundBytes_eq_known {s : State} {r : Nat} {w : Vector KWord 4} (hr : r ≤ 14)
    (hw : ∀ m : Fin 4, s.W[4 * r + m.val]'(by omega) = known w[m]) : roundBytes s r = known (roundKey w) := by
  ext1 k hk
  have hword := hw ⟨k / 4, by omega⟩
  rw [known_roundKey]
  simp only [roundBytes, tabulate_getElem, scheduleByte, show 4 * r + k / 4 < 60 by omega, dite_true, Fin.getElem_fin]
    at hword ⊢
  rw [hword, known_getElem]

/-- R150: LOADRK of an available round whose words hold values. -/
theorem exec_loadrk {s : State} {r : Nat} {w : Vector KWord 4} (hr : r ≤ 14) (havail : roundAvailable r s.status)
    (hw : ∀ m : Fin 4, s.W[4 * r + m.val]'(by omega) = known w[m]) :
    exec (.loadrk r) s = .next ((s.setRK (roundKey w)).setErr 0) := by
  have hcheck : check (.loadrk r) s.status = none := if_pos havail
  have hbytes := roundBytes_eq_known hr hw
  have hheld : operandsHeld (.loadrk r) s = true := by rw [operandsHeld, operandBytes, hbytes, allHeld_known]
  have hread : readRound s r = roundKey w := by rw [readRound, hbytes, patterns_known]
  rw [exec_of_operandsHeld hcheck hheld, commandWrites, hread]

/-- R150: LOADRK without a schedule, or of a round above KS_NR. -/
theorem exec_loadrk_unavailable {s : State} {r : Nat} (h : s.status.ksv = false ∨ s.status.ksNr.toNat < r) :
    exec (.loadrk r) s = .next (s.setErr 4) :=
  exec_of_check_eq_some (e := .invalidRound)
    (if_neg fun ⟨hksv, hr⟩ => h.elim (by simp [hksv]) (Nat.not_lt.mpr hr))

/-- R29: a legal schedule is that of an AES key, `KS_NR = KS_NK + 6`. -/
theorem legalTriple_schedule {t : Status} (h : legalTriple t) (hksv : t.ksv = true) :
    (t.ksNk.toNat = 4 ∨ t.ksNk.toNat = 6 ∨ t.ksNk.toNat = 8) ∧ t.ksNr.toNat = t.ksNk.toNat + 6 := by
  rcases h with ⟨hno, -, -⟩ | ⟨-, hnk, hnr⟩ | ⟨-, hnk, hnr⟩ | ⟨-, hnk, hnr⟩
  · exact absurd (hno.symm.trans hksv) (by decide)
  all_goals rw [hnk, hnr]; decide

/-- R29: no schedule reaches round 15. -/
theorem legalTriple_round15 {t : Status} (h : legalTriple t) : t.ksv = false ∨ t.ksNr.toNat < 15 := by
  by_cases hksv : t.ksv = true
  · have := legalTriple_schedule h hksv
    omega
  · exact .inl (Bool.of_not_eq_true hksv)

/-- Words `4r` to `4r+3` of a schedule. -/
def roundWords (ws : List KWord) (r : Nat) : Vector KWord 4 := tabulate fun m => ws.getD (4 * r + m.val) zeroWord

theorem known_roundKey_roundWords (ws : List KWord) (r : Nat) :
    known (roundKey (roundWords ws r)) =
      tabulate fun k : Fin 16 => .value ((ws.getD (4 * r + k.val / 4) zeroWord)[k.val % 4]'(by omega)) := by
  simp only [known_roundKey, roundWords, tabulate_getElem]

/-- R145: round key 0 is the first 16 bytes of the key. -/
theorem expandKey_roundZero {nk : Nat} (key : List Byte) (hnk : 4 ≤ nk) (k : Fin 16) :
    ((expandKey nk key).getD (k.val / 4) zeroWord)[k.val % 4]'(by omega) = key.getD k.val 0 := by
  have hbyte := keyWord_getElem key (k.val / 4) ⟨k.val % 4, by omega⟩
  rw [Nat.div_add_mod] at hbyte
  rw [expandKey_getD_keyWord key (by omega), ← hbyte]
  rfl

/-- Settles O24: `exec_loadrk` and `exec_loadrk_unavailable` say what the command does, and the schedule invariant supplies its words. -/
theorem loadrkResult : Obligations.LoadrkResult := by
  refine ⟨?completes, ?fails, ?round15, ?pattern, fun r => (loadrk_canonicalWord r).1, ?inSchedule⟩
  case completes =>
    intro s r w hr hksv hnr hw
    rw [exec_loadrk hr ⟨hksv, hnr⟩ hw, ← known_roundKey]
    rfl
  case fails =>
    intro s r h
    exact exec_loadrk_unavailable h
  case round15 =>
    intro s h
    exact exec_loadrk_unavailable (legalTriple_round15 h)
  case pattern =>
    intro cmd h
    exact decode_of_match (op := 8) (by decide) h
  case inSchedule =>
    intro s r htriple hinv hksv hr
    obtain ⟨hnk, hnr⟩ := legalTriple_schedule htriple hksv
    obtain ⟨key, hlen, hwords, -⟩ := hinv.1 hksv
    refine ⟨key, hlen, hwords, ?result, ?roundZero⟩
    case result =>
      have hw (m : Fin 4) : s.W[4 * r + m.val]'(by omega) =
          known (roundWords (expandKey s.status.ksNk.toNat key) r)[m] := by
        rw [roundWords, Fin.getElem_fin, tabulate_getElem]
        exact hwords ⟨4 * r + m.val, by omega⟩ (by show 4 * r + m.val < _; omega)
      rw [exec_loadrk (by omega) ⟨hksv, hr⟩ hw, ← known_roundKey_roundWords]
      rfl
    case roundZero =>
      rintro rfl k
      simp only [Nat.mul_zero, Nat.zero_add]
      exact expandKey_roundZero key (by omega) k

/- ---- EXPANDKEY, and the key of zeros ---- -/

/-- R146: EXPANDKEY of a key that holds values. -/
theorem exec_expandkey {s : State} {klen : Nat} {key : List Byte} (hlen : keyLength klen)
    (hkey : keyBytes s klen = key.map .value) :
    exec (.expandkey klen) s = .next ((s.setSchedule (klen / 4) (expandKey (klen / 4) key)).setErr 0) := by
  have hcheck : check (.expandkey klen) s.status = none := if_pos hlen
  have hheld : operandsHeld (.expandkey klen) s = true := by
    rw [operandsHeld, operandBytes, hkey, allHeld_map_value]
  have hread : readKey s klen = key := by rw [readKey, hkey, map_pattern_map_value]
  rw [exec_of_operandsHeld hcheck hheld, commandWrites, hread]

/-- R151: the word that the first round key of the all-zero 128-bit key repeats. -/
def zeroKeyWord : KWord := #v[0x62, 0x63, 0x63, 0x63]

theorem expandKey_zeroKey (m : Fin 4) : (expandKey 4 (List.replicate 16 0)).getD (4 + m.val) zeroWord = zeroKeyWord := by
  revert m
  decide +kernel

theorem roundKey_zeroKey : roundKey (Vector.replicate 4 zeroKeyWord) =
    #v[0x62, 0x63, 0x63, 0x63, 0x62, 0x63, 0x63, 0x63, 0x62, 0x63, 0x63, 0x63, 0x62, 0x63, 0x63, 0x63] := by
  decide +kernel

/-- Settles O25: `exec_expandkey`, then `exec_loadrk` of the first derived words in the schedule memory that it wrote. -/
theorem zeroKeyRoundOne : Obligations.ZeroKeyRoundOne := by
  intro s hkey
  have hexpand : exec (.expandkey 16) s =
      .next ((s.setSchedule 4 (expandKey 4 (List.replicate 16 0))).setErr 0) :=
    exec_expandkey (.inl rfl) (by rw [List.map_replicate]; exact hkey)
  have hwords (m : Fin 4) :
      ((s.setSchedule 4 (expandKey 4 (List.replicate 16 0))).setErr 0).W[4 * 1 + m.val]'(by omega) =
        known (Vector.replicate 4 zeroKeyWord)[m] := by
    rw [State.setErr_W, State.setSchedule_W, scheduleMemory_getElem, if_pos (by rw [expandKey_length]; omega),
      Nat.mul_one, expandKey_zeroKey, Fin.getElem_fin, Vector.getElem_replicate]
  refine ⟨_, _, hexpand, exec_loadrk (by decide) ⟨rfl, show 1 ≤ 10 by decide⟩ hwords, ?_⟩
  rw [State.setErr_RK, State.setRK_RK, roundKey_zeroKey]

end Sys2Proof.Proofs
end

section
/-! PROOFS. Error reporting and idling: a failing check changes only ERR, each completed command writes ERR, and nothing else does but reset (60_exceptions.md R172, R173, R184). -/

namespace Sys2Proof.Proofs

open Sys2Proof.Machine

/- ---- What the first failing check reports, and what a command leaves in ERR ---- -/

/-- R170: the check of the three commands with one length, SLEN. -/
theorem check_blockLength_fails {slen : Nat} (h : slen ≠ 16) (t : Status) :
    check (.subbytes slen) t = some .invalidBlockLength ∧ check (.shiftrows slen) t = some .invalidBlockLength ∧
      check (.mixcolumns slen) t = some .invalidBlockLength :=
  ⟨if_neg h, if_neg h, if_neg h⟩

theorem check_addroundkey_fails {slen klen : Nat} (h : slen ≠ 16 ∨ klen ≠ 16) (t : Status) :
    check (.addroundkey slen klen) t = some .invalidBlockLength :=
  if_neg (not_and_or.mpr h)

theorem check_expandkey_fails {klen : Nat} (h16 : klen ≠ 16) (h24 : klen ≠ 24) (h32 : klen ≠ 32) (t : Status) :
    check (.expandkey klen) t = some .invalidKeyLength :=
  if_neg (not_or.mpr ⟨h16, not_or.mpr ⟨h24, h32⟩⟩)

theorem check_loadrk_fails {r : Nat} {t : Status} (h : t.ksv = false ∨ t.ksNr.toNat < r) :
    check (.loadrk r) t = some .invalidRound :=
  if_neg fun ⟨hksv, hr⟩ => h.elim (by simp [hksv]) (Nat.not_lt.mpr hr)

theorem commandResult_of_check_eq_some {i : Instr} {s : State} {e : CmdError} (hcheck : check i s.status = some e) :
    commandResult i s = s.setErr e.code := by
  rw [commandResult, hcheck]

theorem commandResult_of_check_eq_none {i : Instr} {s : State} (hcheck : check i s.status = none) :
    commandResult i s = (commandEffect i s).setErr 0 := by
  rw [commandResult, hcheck]

/- ---- The core's step when it is due ---- -/

section
variable {s : State} {cmd : Word} (hpending : s.pending = some cmd) (hwait : s.wait = 0)
  (hreset : resetNow s.queue = false)

include hpending hwait hreset

theorem step_of_decode_command {i : Instr} (hdecode : decode cmd = .command i) :
    step s = .next (commandResult i s).complete := by
  rw [step_core hpending hwait hreset, coreStep_command s hdecode]

theorem step_of_decode_illegal {why : Illegal} (hdecode : decode cmd = .illegal why) :
    step s = .next (s.setErr 3).complete := by
  rw [step_core hpending hwait hreset, coreStep_illegal s hdecode]

/-- R172: a command whose check fails completes with its code in ERR. -/
theorem step_of_check_eq_some {i : Instr} {e : CmdError} (hdecode : decode cmd = .command i)
    (hcheck : check i s.status = some e) : step s = .next (s.setErr e.code).complete := by
  rw [step_of_decode_command hpending hwait hreset hdecode, commandResult_of_check_eq_some hcheck]

/-- Completion clears the pending command, whatever the word. -/
theorem step_due_pending {t : State} (hstep : step s = .next t) : t.pending = none := by
  rw [step_core hpending hwait hreset] at hstep
  obtain ⟨i, -, rfl⟩ | ⟨why, -, rfl⟩ := coreStep_next hstep
  · exact State.complete_pending _
  · exact State.complete_pending _

end

/-- Settles O26: each disjunct names the check that fails, and completion after `setErr` is the state claimed. -/
theorem failingCommandsChangeOnlyErr : Obligations.FailingCommandsChangeOnlyErr := by
  intro s cmd e hpending hwait hreset hfail
  rcases hfail with ⟨why, hdecode, rfl⟩ | ⟨slen, hslen, rfl, hdecode⟩ | ⟨slen, klen, hlen, rfl, hdecode⟩ |
    ⟨klen, h16, h24, h32, rfl, hdecode⟩ | ⟨r, hround, rfl, hdecode⟩
  · exact step_of_decode_illegal hpending hwait hreset hdecode
  · obtain ⟨hsubbytes, hshiftrows, hmixcolumns⟩ := check_blockLength_fails hslen s.status
    rcases hdecode with hdecode | hdecode | hdecode
    · exact step_of_check_eq_some hpending hwait hreset hdecode hsubbytes
    · exact step_of_check_eq_some hpending hwait hreset hdecode hshiftrows
    · exact step_of_check_eq_some hpending hwait hreset hdecode hmixcolumns
  · exact step_of_check_eq_some hpending hwait hreset hdecode (check_addroundkey_fails hlen s.status)
  · exact step_of_check_eq_some hpending hwait hreset hdecode (check_expandkey_fails h16 h24 h32 s.status)
  · exact step_of_check_eq_some hpending hwait hreset hdecode (check_loadrk_fails hround)

/- ---- ERR over every step ---- -/

/-- R173: no access of the host changes ERR; reset sets it to 0. -/
theorem hostCycle_err {s t : State} (h : hostCycle s = .next t) :
    t.status.err = s.status.err ∨ ∃ q, s.queue = .reset :: q ∧ t.status.err = 0 := by
  rcases hostCycle_next h with ⟨-, rfl⟩ | ⟨q, -, rfl⟩ | ⟨off, q, -, -, -, rfl⟩ | ⟨v, q, -, -, rfl⟩ |
    ⟨off, v, q, -, -, -, -, rfl⟩ | ⟨q, -, rfl⟩ | ⟨q, hq, rfl⟩
  case inr.inr.inr.inr.inr.inr => exact .inr ⟨q, hq, by simp [Status.reset]⟩
  all_goals exact .inl (by simp)

/-- Settles O50: the core's step by the word's decoding and its check; any other step is a bus cycle, by `hostCycle_err`. -/
theorem errDescribesLastCommand : Obligations.ErrDescribesLastCommand := by
  refine ⟨?completion, ?otherSteps⟩
  case completion =>
    intro s t cmd hpending hwait hreset hstep
    refine ⟨step_due_pending hpending hwait hreset hstep, ?_⟩
    cases hdecode : decode cmd with
    | illegal why =>
      cases (step_of_decode_illegal hpending hwait hreset hdecode).symm.trans hstep
      rfl
    | command i =>
      cases (step_of_decode_command hpending hwait hreset hdecode).symm.trans hstep
      cases hcheck : check i s.status with
      | none => simp [commandResult_of_check_eq_none hcheck, hcheck]
      | some e => simp [commandResult_of_check_eq_some hcheck, hcheck]
  case otherSteps =>
    intro s t hstep hchanged
    rcases step_turn s with ⟨cmd, hpending, hwait, hreset⟩ | hhost
    · exact .inl ⟨cmd, hpending, hwait, step_due_pending hpending hwait hreset hstep⟩
    · rw [step_host hhost] at hstep
      rcases hostCycle_err hstep with hsame | hreset
      · exact absurd (hsame.trans (by rw [State.tick_status])) hchanged
      · rw [State.tick_queue] at hreset
        exact .inr hreset

/- ---- The idle core ---- -/

theorem step_idle {s : State} (hidle : s.pending = none) : step s = hostCycle s := by
  rw [step_host (.inl hidle), tick_idle hidle]

theorem hostCycle_noAction {s : State} (hq : s.queue = []) : hostCycle s = .next (s.respond .quiet) := by
  rw [hostCycle, hq]

theorem hostCycle_idle {s : State} {q : List HostAction} (hq : s.queue = .idle :: q) :
    hostCycle s = .next ((s.setQueue q).respond .quiet) := by
  rw [hostCycle, hq]
  rfl

/-- Settles O44: an idle core's step is the bus cycle, and one without an access touches only the bus. -/
theorem idleCoreHoldsState : Obligations.IdleCoreHoldsState := by
  intro s hidle
  rw [step_idle hidle]
  exact ⟨hostCycle_noAction, fun _ => hostCycle_idle⟩

end Sys2Proof.Proofs
end

section
/-! PROOFS. Reset in any state (70_reset_and_hazards.md R190, R191). -/

namespace Sys2Proof.Proofs

open Sys2Proof.Machine Sys2Proof.Safety

/-- R191: the step in which reset is applied is the host's bus cycle, even when the core's step is due. -/
theorem step_resetNow {s : State} {a : HostAction} {q : List HostAction} (hreset : resetNow s.queue = true)
    (hq : s.queue = a :: q) : step s = hostAction a (s.tick.setQueue q) := by
  rw [step_host (.inr (.inr hreset)), hostCycle, State.tick_queue, hq]

theorem step_reset {s : State} {q : List HostAction} (hq : s.queue = .reset :: q) :
    step s = .next (s.tick.setQueue q).applyReset :=
  step_resetNow (by rw [hq, resetNow]) hq

theorem step_resetDuring {s : State} {a : Access} {q : List HostAction} (hq : s.queue = .resetDuring a :: q) :
    step s = .fault .accessDuringReset :=
  step_resetNow (by rw [hq, resetNow]) hq

theorem allBottom_applyReset (s : State) : allBottom s.applyReset := by
  simpa only [allBottom, State.applyReset_ST, State.applyReset_RK, State.applyReset_CK, State.applyReset_BA,
    State.applyReset_BB, State.applyReset_BY, State.applyReset_W] using allBottom_reset

/-- Settles O59: `step_reset` gives the reset state, whose fields are read off, and `step_resetDuring` the fault. -/
theorem resetGivesResetState : Obligations.ResetGivesResetState := by
  intro s q
  refine ⟨fun hq => ⟨_, step_reset hq, allBottom_applyReset _, ?cmd, ?status, ?busy, ?pending⟩,
    fun a hq => ⟨_, step_resetDuring hq⟩⟩
  case cmd => rw [State.applyReset_CMD, reset_CMD]
  case status => rw [State.applyReset_status, State.reset_status, statusWord_reset]
  case busy => rw [State.applyReset_status, State.reset_status, Status.reset]
  case pending => rw [State.applyReset_pending, State.reset_pending]

end Sys2Proof.Proofs
end

section
/-! PROOFS. Decoder and encoder against each other: the fields of a packed word, the operands the decoder answers, and the words it refuses (30_encoding.md R60 to R70). -/

namespace Sys2Proof.Proofs

open Sys2Proof.Machine

/- ---- Encode, then decode ---- -/

/-- RND, SLEN and KLEN of a packed word (R60, R62, R63): above its own width no field has a bit. -/
theorem packFields_operands (op rnd slen klen : Nat) :
    rndField (packFields op rnd slen klen) = BitVec.ofNat 4 rnd ∧
      slenField (packFields op rnd slen klen) = BitVec.ofNat 6 slen ∧
      klenField (packFields op rnd slen klen) = BitVec.ofNat 6 klen := by
  have above {w : Nat} (x : BitVec w) {k : Nat} (hk : w ≤ k) : x.getLsbD k = false := BitVec.getLsbD_of_ge x k hk
  refine ⟨?rnd, ?slen, ?klen⟩ <;> refine BitVec.eq_of_getLsbD_eq fun i hi => ?_ <;>
    simp only [rndField, slenField, klenField, packFields, BitVec.getLsbD_extractLsb', BitVec.getLsbD_or,
      BitVec.getLsbD_shiftLeft, BitVec.getLsbD_setWidth]
  case rnd =>
    simp [hi, show 4 + i < 8 by omega, show 4 + i < 16 by omega, show 4 + i < 32 by omega,
      show i < 32 by omega]
  case slen =>
    simp [hi, show 8 + i < 16 by omega, above _ (show 4 ≤ 8 + i - 4 by omega), above _ (show 4 ≤ 8 + i by omega),
      show 8 + i < 32 by omega, show i < 32 by omega]
  case klen =>
    simp [hi, above _ (show 6 ≤ 16 + i - 8 by omega), above _ (show 4 ≤ 16 + i - 4 by omega),
      above _ (show 4 ≤ 16 + i by omega), show 16 + i < 32 by omega, show i < 32 by omega]

/-- A word packed of fields that fit decodes by them. -/
theorem decode_packFields {op rnd slen klen : Nat} (hop : op < 16) (hrnd : fitsRound rnd) (hslen : fitsLength slen)
    (hklen : fitsLength klen) : decode (packFields op rnd slen klen) = decodeOp op rnd slen klen := by
  obtain ⟨hopField, hreserved⟩ := Laws.OpcodeField.packFields_fields op rnd slen klen hop
  obtain ⟨hrndField, hslenField, hklenField⟩ := packFields_operands op rnd slen klen
  rw [decode, hreserved, if_neg Bool.false_ne_true, hopField, hrndField, hslenField, hklenField, BitVec.toNat_ofNat,
    BitVec.toNat_ofNat, BitVec.toNat_ofNat, Nat.mod_eq_of_lt hrnd, Nat.mod_eq_of_lt hslen, Nat.mod_eq_of_lt hklen]

theorem opcode_lt (i : Instr) : opcode i < 16 := by
  cases i <;> simp [opcode]

/-- Settles O2: each command's word is packed of its opcode and its operands, which fit, so `decode_packFields` reads them back. -/
theorem decodeOfEncode : Obligations.DecodeOfEncode := by
  intro i hwf
  cases i with
  | gfmul => exact decode_packFields (opcode_lt _) (by decide) (by decide) (by decide)
  | sbox => exact decode_packFields (opcode_lt _) (by decide) (by decide) (by decide)
  | subbytes slen => exact decode_packFields (opcode_lt _) (by decide) (of_decide_eq_true hwf) (by decide)
  | shiftrows slen => exact decode_packFields (opcode_lt _) (by decide) (of_decide_eq_true hwf) (by decide)
  | mixcolumns slen => exact decode_packFields (opcode_lt _) (by decide) (of_decide_eq_true hwf) (by decide)
  | addroundkey slen klen =>
    obtain ⟨hslen, hklen⟩ := Bool.and_eq_true_iff.mp hwf
    exact decode_packFields (opcode_lt _) (by decide) (of_decide_eq_true hslen) (of_decide_eq_true hklen)
  | expandkey klen => exact decode_packFields (opcode_lt _) (by decide) (by decide) (of_decide_eq_true hwf)
  | loadrk rnd => exact decode_packFields (opcode_lt _) (of_decide_eq_true hwf) (by decide) (by decide)

/- ---- What the decoder answers ---- -/

theorem decodeOp_wf {op rnd slen klen : Nat} {i : Instr} (hrnd : fitsRound rnd) (hslen : fitsLength slen)
    (hklen : fitsLength klen) (h : decodeOp op rnd slen klen = .command i) : i.wf = true := by
  unfold decodeOp at h
  split at h <;> cases h <;> simp only [Instr.wf, hrnd, hslen, hklen, decide_true, Bool.and_self]

/-- Settles O3: the operands are fields of the word, and a field is below 2 to its width. -/
theorem decodedCommandsAreWellFormed : Obligations.DecodedCommandsAreWellFormed := by
  intro cmd i h
  rw [decode] at h
  split at h
  · cases h
  · exact decodeOp_wf (rndField cmd).isLt (slenField cmd).isLt (klenField cmd).isLt h

/-- Opcodes 0x1 to 0x8 are commands, whatever the other fields (R65). -/
theorem decodeOp_legal {op : Nat} (h0 : op ≠ 0) (h9 : op < 9) (rnd slen klen : Nat) :
    ∃ i, decodeOp op rnd slen klen = .command i := by
  interval_cases op
  · exact absurd rfl h0
  all_goals exact ⟨_, rfl⟩

/-- Settles O5: the words of R68 are illegal by `decode_illegal`; any other has a legal opcode and no reserved bit. -/
theorem illegalWordsExactly : Obligations.IllegalWordsExactly := by
  refine fun cmd => ⟨fun ⟨why, hillegal⟩ => ?_, decode_illegal⟩
  by_contra hcmd
  obtain ⟨hop0, hop9, hreserved⟩ : (cmd &&& 0xF#32).toNat ≠ 0 ∧ (cmd &&& 0xF#32).toNat < 9 ∧ cmd &&& 0xFFC0C000#32 = 0 := by
    simpa using hcmd
  obtain ⟨i, hlegal⟩ := decodeOp_legal hop0 hop9 _ _ _
  rw [decode_unreserved hreserved, hlegal] at hillegal
  cases hillegal

end Sys2Proof.Proofs
end

section
/-! PROOFS. What every step keeps: the schedule and its legal triples, the status invariant, the host's discipline, and who writes CK and BY (10_state.md R25 to R31; 70_reset_and_hazards.md R197, R199). -/

namespace Sys2Proof.Proofs

open Sys2Proof.Machine Sys2Proof.Safety

/- ---- What no command changes ---- -/

/-- R35: what a command leaves as it was, whether its check passes or fails. -/
theorem commandResult_frame (i : Instr) (s : State) :
    (commandResult i s).CK = s.CK ∧ (commandResult i s).BA = s.BA ∧ (commandResult i s).BB = s.BB ∧
      (commandResult i s).CMD = s.CMD ∧ (commandResult i s).status.busy = s.status.busy ∧
      (commandResult i s).pending = s.pending ∧ (commandResult i s).wait = s.wait ∧
      (commandResult i s).queue = s.queue ∧ (commandResult i s).resp = s.resp := by
  cases hcheck : check i s.status with
  | some e =>
    rw [commandResult_of_check_eq_some hcheck]
    exact ⟨rfl, rfl, rfl, rfl, rfl, rfl, rfl, rfl, rfl⟩
  | none =>
    rw [commandResult_of_check_eq_none hcheck]
    obtain ⟨hCK, hBA, hBB, hCMD, hbusy, hpending, hwait, hqueue, hresp, -⟩ := commandEffect_frame i s
    exact ⟨hCK, hBA, hBB, hCMD, hbusy, hpending, hwait, hqueue, hresp⟩

/-- The core's step makes no bus cycle and writes no cipher key (R25, R35). -/
theorem coreStep_frame {cmd : Word} {s t : State} (h : coreStep cmd s = .next t) : t.queue = s.queue ∧ t.CK = s.CK := by
  obtain ⟨i, -, rfl⟩ | ⟨why, -, rfl⟩ := coreStep_next h
  · obtain ⟨hCK, -, -, -, -, -, -, hqueue, -⟩ := commandResult_frame i s
    exact ⟨hqueue, hCK⟩
  · exact ⟨rfl, rfl⟩

/- ---- W and the schedule fields of STATUS ---- -/

/-- `t` has the key schedule of `s`: the same W, KSV, KS_NK and KS_NR. -/
def sameSchedule (s t : State) : Prop :=
  t.W = s.W ∧ t.status.ksv = s.status.ksv ∧ t.status.ksNk = s.status.ksNk ∧ t.status.ksNr = s.status.ksNr

/-- `t` has the schedule that EXPANDKEY(klen) computes from `s` (R146). -/
def hasExpansion (klen : Nat) (s t : State) : Prop :=
  t.W = scheduleMemory s.draws (expandKey (klen / 4) (readKey s klen)) ∧ t.status.ksv = true ∧
    t.status.ksNk = BitVec.ofNat 4 (klen / 4) ∧ t.status.ksNr = BitVec.ofNat 4 (klen / 4 + 6)

theorem keyLength_of_check {klen : Nat} {t : Status} (h : check (.expandkey klen) t = none) : keyLength klen := by
  by_contra hlen
  have hfails : check (.expandkey klen) t = some .invalidKeyLength := if_neg hlen
  exact absurd (hfails.symm.trans h) (by simp)

/-- R31, R35: a command leaves the schedule, or is a successful EXPANDKEY. -/
theorem commandResult_schedule (i : Instr) (s : State) :
    sameSchedule s (commandResult i s) ∨
      ∃ klen, i = .expandkey klen ∧ keyLength klen ∧ hasExpansion klen s (commandResult i s) := by
  cases hcheck : check i s.status with
  | some e =>
    rw [commandResult_of_check_eq_some hcheck]
    exact .inl ⟨rfl, rfl, rfl, rfl⟩
  | none =>
    rw [commandResult_of_check_eq_none hcheck]
    obtain ⟨hstatus, hW, -⟩ | ⟨klen, rfl⟩ := commandEffect_schedule i s
    · exact .inl (by simp [sameSchedule, hstatus, hW])
    · exact .inr ⟨klen, rfl, keyLength_of_check hcheck, rfl, rfl, rfl, rfl⟩

/-- R31: no bus cycle of the host but reset changes the schedule. -/
theorem hostCycle_schedule {s t : State} (h : hostCycle s = .next t) :
    sameSchedule s t ∨ ∃ q, s.queue = .reset :: q ∧ t.W = State.reset.W ∧ t.status = Status.reset := by
  rcases hostCycle_next h with ⟨-, rfl⟩ | ⟨q, -, rfl⟩ | ⟨off, q, -, -, -, rfl⟩ | ⟨v, q, -, -, rfl⟩ |
    ⟨off, v, q, -, -, -, -, rfl⟩ | ⟨q, -, rfl⟩ | ⟨q, hq, rfl⟩
  case inr.inr.inr.inr.inr.inr => exact .inr ⟨q, hq, by simp, by simp⟩
  all_goals exact .inl (by simp [sameSchedule])

/-- Everything a step can do to the schedule (R31, R152). -/
theorem step_schedule {s t : State} (hstep : step s = .next t) :
    sameSchedule s t ∨
      (∃ cmd klen, s.pending = some cmd ∧ s.wait = 0 ∧ decode cmd = .command (.expandkey klen) ∧ keyLength klen ∧
        hasExpansion klen s t) ∨
      ∃ q, s.queue = .reset :: q ∧ t.W = State.reset.W ∧ t.status = Status.reset := by
  rcases step_turn s with ⟨cmd, hpending, hwait, hreset⟩ | hhost
  · rw [step_core hpending hwait hreset] at hstep
    obtain ⟨i, hdecode, rfl⟩ | ⟨why, -, rfl⟩ := coreStep_next hstep
    · obtain hsame | ⟨klen, rfl, hlen, hexpansion⟩ := commandResult_schedule i s
      · exact .inl hsame
      · exact .inr (.inl ⟨cmd, klen, hpending, hwait, hdecode, hlen, hexpansion⟩)
    · exact .inl ⟨rfl, rfl, rfl, rfl⟩
  · rw [step_host hhost] at hstep
    obtain hsame | hreset := hostCycle_schedule hstep
    · exact .inl (by simpa [sameSchedule] using hsame)
    · exact .inr (.inr (by simpa using hreset))

/-- R146: the fields hold the numbers they are given. -/
theorem expansion_fields {klen : Nat} (hlen : keyLength klen) :
    (BitVec.ofNat 4 (klen / 4)).toNat = klen / 4 ∧ (BitVec.ofNat 4 (klen / 4 + 6)).toNat = klen / 4 + 6 := by
  rcases hlen with rfl | rfl | rfl <;> decide

/-- Settles O48: by `step_schedule` a step that changes the schedule is a successful EXPANDKEY or reset. -/
theorem scheduleChangesOnlyByExpandkeyOrReset : Obligations.ScheduleChangesOnlyByExpandkeyOrReset := by
  intro s t hstep hchanged
  obtain hsame | ⟨cmd, klen, hpending, hwait, hdecode, hlen, -, hksv, hnk, hnr⟩ | ⟨q, hq, -, hstatus⟩ :=
    step_schedule hstep
  · obtain ⟨hW, hksv, hnk, hnr⟩ := hsame
    simp [hW, hksv, hnk, hnr] at hchanged
  · obtain ⟨hnkField, hnrField⟩ := expansion_fields hlen
    exact .inl ⟨cmd, klen, hpending, hwait, hdecode, hlen, hksv, hnk ▸ hnkField, hnr ▸ hnrField⟩
  · exact .inr ⟨q, hq, by simp [hstatus, Status.reset]⟩

theorem scheduleInv_of_sameSchedule {s t : State} (h : sameSchedule s t) (hinv : scheduleInv s) : scheduleInv t := by
  obtain ⟨hW, hksv, hnk, -⟩ := h
  simpa only [scheduleInv, hW, hksv, hnk] using hinv

theorem readKey_length {klen : Nat} (s : State) (hlen : keyLength klen) : (readKey s klen).length = klen := by
  simp only [readKey, keyBytes, List.length_map, List.length_take, Vector.length_toList]
  omega

/-- R146: the key is the one EXPANDKEY read, and above its words W is ⊥. -/
theorem scheduleInv_of_hasExpansion {s t : State} {klen : Nat} (hlen : keyLength klen) (h : hasExpansion klen s t) :
    scheduleInv t := by
  obtain ⟨hW, hksv, hnkField, -⟩ := h
  have hnk : t.status.ksNk.toNat = klen / 4 := hnkField ▸ (expansion_fields hlen).1
  have hwords := expandKey_length (klen / 4) (readKey s klen)
  refine ⟨fun _ => ⟨readKey s klen, ?length, fun i hi => ?word, fun i j hi => ?above⟩, fun hno => ?noSchedule⟩
  case length =>
    rw [readKey_length s hlen, hnk]
    omega
  case word =>
    rw [hnk] at hi ⊢
    rw [hW, Fin.getElem_fin, scheduleMemory_getElem, if_pos (by omega)]
  case above =>
    rw [hnk] at hi
    rw [hW]
    exact scheduleMemory_bottom _ _ _ i.isLt _ j.isLt (by omega)
  case noSchedule => exact absurd (hksv.symm.trans hno) (by decide)

theorem scheduleInv_of_reset {t : State} (hW : t.W = State.reset.W) (hstatus : t.status = Status.reset) :
    scheduleInv t := by
  refine ⟨fun hksv => ?_, fun _ => hW ▸ isBottom_reset_W⟩
  rw [hstatus] at hksv
  cases hksv

/-- Settles O47: in each case of `step_schedule` the schedule is the old one, an expansion, or that of reset. -/
theorem stepKeepsScheduleInvariant : Obligations.StepKeepsScheduleInvariant := by
  intro s t _ hinv hstep
  obtain hsame | ⟨_, klen, -, -, -, hlen, hexpansion⟩ | ⟨_, -, hW, hstatus⟩ := step_schedule hstep
  · exact scheduleInv_of_sameSchedule hsame hinv
  · exact scheduleInv_of_hasExpansion hlen hexpansion
  · exact scheduleInv_of_reset hW hstatus

/- ---- The status invariant ---- -/

/-- R29: the triples that a step produces are legal. -/
theorem legalTriple_step {s t : State} (h : legalTriple s.status) (hstep : step s = .next t) :
    legalTriple t.status := by
  obtain ⟨-, hksv, hnk, hnr⟩ | ⟨_, klen, -, -, -, hlen, -, hksv, hnk, hnr⟩ | ⟨_, -, -, hstatus⟩ := step_schedule hstep
  · simpa only [legalTriple, hksv, hnk, hnr] using h
  · rw [legalTriple, hksv, hnk, hnr]
    rcases hlen with rfl | rfl | rfl <;> decide
  · rw [hstatus]
    decide

/-- R170: no step writes a reserved code. -/
theorem err_step {s t : State} (h : s.status.err.toNat ≤ 4) (hstep : step s = .next t) : t.status.err.toNat ≤ 4 := by
  rcases step_turn s with ⟨cmd, hpending, hwait, hreset⟩ | hhost
  · obtain ⟨-, herr⟩ := errDescribesLastCommand.1 s t cmd hpending hwait hreset hstep
    rw [herr]
    split
    · decide
    · split
      · decide
      · next e _ => cases e <;> decide
  · rw [step_host hhost] at hstep
    obtain hsame | ⟨q, -, hzero⟩ := hostCycle_err hstep
    · rwa [hsame, State.tick_status]
    · rw [hzero]
      decide

/-- The part of the status invariant about the in-flight command (R28, R29, R39): BUSY says whether there is one, CMD reads it back, and without one nothing waits. -/
def inFlightInv (s : State) : Prop :=
  s.status.busy = s.pending.isSome ∧ (s.pending = none ∨ s.pending = some s.CMD) ∧ (s.pending = none → s.wait = 0)

theorem inFlightInv_tick {s : State} (h : inFlightInv s) : inFlightInv s.tick := by
  obtain ⟨hbusy, hcmd, hwait⟩ := h
  refine ⟨by simpa using hbusy, by simpa using hcmd, fun hidle => ?_⟩
  rw [State.tick_pending] at hidle
  rw [tick_idle hidle, hwait hidle]

theorem inFlightInv_hostCycle {s t : State} (hinv : inFlightInv s) (h : hostCycle s = .next t) : inFlightInv t := by
  rcases hostCycle_next h with ⟨-, rfl⟩ | ⟨q, -, rfl⟩ | ⟨off, q, -, -, -, rfl⟩ | ⟨v, q, -, -, rfl⟩ |
    ⟨off, v, q, -, -, -, -, rfl⟩ | ⟨q, -, rfl⟩ | ⟨q, -, rfl⟩
  case inr.inr.inr.inl => simp [inFlightInv]
  case inr.inr.inr.inr.inr.inr => simp [inFlightInv, Status.reset]
  all_goals simpa [inFlightInv] using hinv

theorem inFlightInv_step {s t : State} (hinv : inFlightInv s) (hstep : step s = .next t) : inFlightInv t := by
  rcases step_turn s with ⟨cmd, hpending, hwait, hreset⟩ | hhost
  · rw [step_core hpending hwait hreset] at hstep
    obtain ⟨i, -, rfl⟩ | ⟨why, -, rfl⟩ := coreStep_next hstep <;> simp [inFlightInv]
  · rw [step_host hhost] at hstep
    exact inFlightInv_hostCycle (inFlightInv_tick hinv) hstep

/-- Settles O46: the in-flight command, ERR and the triple, each kept by itself. -/
theorem stepKeepsStatusInvariant : Obligations.StepKeepsStatusInvariant := by
  intro s t ⟨hbusy, hcmd, hwait, herr, htriple⟩ hstep
  obtain ⟨hbusy', hcmd', hwait'⟩ := inFlightInv_step ⟨hbusy, hcmd, hwait⟩ hstep
  exact ⟨hbusy', hcmd', hwait', err_step herr hstep, legalTriple_step htriple hstep⟩

/-- Settles O45: at reset nothing is in flight, ERR and the triple are 0, and W is ⊥ with KSV = 0. -/
theorem invariantsAtReset : Obligations.InvariantsAtReset :=
  ⟨⟨rfl, .inl rfl, fun _ => rfl, by decide, by decide⟩, scheduleInv_of_reset rfl rfl⟩

/- ---- The host's discipline ---- -/

/-- A host that may make only STATUS and CMD reads until its next POLL is all the more free to go on so once the command has completed. -/
theorem disciplined_completed {q : List HostAction} (h : disciplined true q = true) : disciplined false q = true := by
  induction q with
  | nil => rfl
  | cons a q ih =>
    cases a with
    | access acc =>
      obtain ⟨hread, hrest⟩ := Bool.and_eq_true_iff.mp h
      cases acc with
      | read off bytes => exact ih hrest
      | write off bytes v => cases hread
    | poll => exact h
    | idle => exact ih h
    | reset => exact h
    | resetDuring acc => rfl

/-- The accesses that the discipline lets through after a CMD write are those that the hazard lets through (R197). -/
theorem readsStatusOrCmd_of_busyReadable {off : BitVec 10} (h : busyReadable off) :
    readsStatusOrCmd (.read off 4) = true := by
  simpa [readsStatusOrCmd] using h.symm

/-- The busy fault comes only from an access, other than a STATUS or CMD read, while a command is pending (R197, R199). -/
theorem hostCycle_busyAccess {s : State} (h : hostCycle s = .fault .busyAccess) :
    s.pending.isSome = true ∧ ∃ a q, s.queue = .access a :: q ∧ readsStatusOrCmd a = false := by
  unfold hostCycle at h
  cases hq : s.queue with
  | nil => rw [hq] at h; cases h
  | cons a q =>
    rw [hq] at h
    cases a with
    | access acc =>
      cases acc with
      | read off bytes =>
        simp only [hostAction, hostAccess, hostRead] at h
        split_ifs at h with _ _ hbusy
        · cases h
        · cases h
        · exact ⟨hbusy.1, _, q, rfl, by simpa [readsStatusOrCmd, and_comm] using fun _ => hbusy.2⟩
      | write off bytes v =>
        simp only [hostAction, hostAccess, hostWrite] at h
        split_ifs at h with _ _ hbusy
        · cases h
        · cases h
        · exact ⟨hbusy, _, q, rfl, rfl⟩
    | poll => cases h
    | idle => cases h
    | reset => cases h
    | resetDuring acc => cases h

theorem step_ne_busyAccess {s : State} (h : disciplined s.pending.isSome s.queue = true) :
    step s ≠ .fault .busyAccess := by
  intro hstep
  rcases step_turn s with ⟨cmd, hpending, hwait, hreset⟩ | hhost
  · rw [step_core hpending hwait hreset] at hstep
    obtain ⟨t, ht⟩ := coreStep_total cmd s
    rw [ht] at hstep
    cases hstep
  · rw [step_host hhost] at hstep
    obtain ⟨hbusy, a, q, hq, hother⟩ := hostCycle_busyAccess hstep
    rw [State.tick_pending] at hbusy
    rw [State.tick_queue] at hq
    rw [hbusy, hq] at h
    exact absurd (Bool.and_eq_true_iff.mp h).1 (Bool.eq_false_iff.mp hother)

theorem disciplined_hostCycle {s t : State} (hbusy : s.status.busy = s.pending.isSome)
    (hdisc : disciplined s.pending.isSome s.queue = true) (h : hostCycle s = .next t) :
    disciplined t.pending.isSome t.queue = true := by
  rcases hostCycle_next h with ⟨hq, rfl⟩ | ⟨q, hq, rfl⟩ | ⟨off, q, hq, -, -, rfl⟩ | ⟨v, q, hq, hp, rfl⟩ |
    ⟨off, v, q, hq, hp, -, hoff, rfl⟩ | ⟨q, hq, rfl⟩ | ⟨q, hq, rfl⟩ <;> rw [hq] at hdisc
  case inl => simp [hq, disciplined]
  case inr.inl => simpa [disciplined] using hdisc
  case inr.inr.inl =>
    cases hp : s.pending with
    | none => simpa [hp, disciplined, writesCmd] using hdisc
    | some cmd =>
      simp only [hp, Option.isSome_some, disciplined, Bool.and_eq_true] at hdisc
      simpa [hp] using hdisc.2
  case inr.inr.inr.inl => simpa [hp, disciplined, writesCmd] using hdisc
  case inr.inr.inr.inr.inl => simpa [hp, disciplined, writesCmd, hoff] using hdisc
  case inr.inr.inr.inr.inr.inl =>
    cases hp : s.pending with
    | none => simpa [hp, hbusy, disciplined] using hdisc
    | some cmd => simpa [hp, hbusy, disciplined] using hdisc
  case inr.inr.inr.inr.inr.inr => simpa [disciplined] using hdisc

theorem disciplined_step {s t : State} (hbusy : s.status.busy = s.pending.isSome)
    (hdisc : disciplined s.pending.isSome s.queue = true) (hstep : step s = .next t) :
    disciplined t.pending.isSome t.queue = true := by
  rcases step_turn s with ⟨cmd, hpending, hwait, hreset⟩ | hhost
  · rw [step_due_pending hpending hwait hreset hstep]
    rw [step_core hpending hwait hreset] at hstep
    rw [hpending] at hdisc
    rw [(coreStep_frame hstep).1]
    exact disciplined_completed hdisc
  · rw [step_host hhost] at hstep
    exact disciplined_hostCycle (by simpa using hbusy) (by simpa using hdisc) hstep

/-- Settles O58: a disciplined host makes no access that the hazard forbids, and each action leaves a disciplined rest. -/
theorem stepKeepsDiscipline : Obligations.StepKeepsDiscipline := by
  intro s hinv hdisc
  refine ⟨step_ne_busyAccess hdisc, fun t hstep => ⟨stepKeepsStatusInvariant s t hinv hstep, ?_⟩⟩
  exact disciplined_step hinv.1 hdisc hstep

/-- Settles O52, by induction on the number of steps: each is no busy fault and keeps what it rests on. -/
theorem disciplinedHostNeverMeetsBusyFault : Obligations.DisciplinedHostNeverMeetsBusyFault := by
  intro k
  induction k with
  | zero => intro s _ _ h; cases h
  | succ k ih =>
    intro s hinv hdisc
    obtain ⟨hnofault, hnext⟩ := stepKeepsDiscipline s hinv hdisc
    cases hstep : step s with
    | next t =>
      obtain ⟨hinv', hdisc'⟩ := hnext t hstep
      rw [run_next k hstep]
      exact ih t hinv' hdisc'
    | fault f =>
      rw [hstep] at hnofault
      rw [run_fault k hstep]
      exact hnofault
    | refused r => exact absurd hstep (step_not_refused s r)

/- ---- Who writes CK and BY ---- -/

/-- R47: a byte outside 0x020..0x03F is none of CK. -/
theorem writeLoc_CK (s : State) (b : Byte) {a : Nat} (h : ¬ (0x020 ≤ a ∧ a < 0x040)) :
    (writeLoc s b (locate a)).CK = s.CK := by
  rcases locate_cases a with ⟨i, -, e⟩ | ⟨i, -, e⟩ | ⟨i, g, -⟩ | ⟨-, e⟩ | ⟨-, e⟩ | ⟨-, e⟩ | ⟨j, -, e⟩ | ⟨j, -, e⟩ |
    ⟨i, j, -, e⟩ | ⟨-, e⟩
  case inr.inr.inl => omega
  all_goals rw [e, writeLoc]

theorem writeWord_CK (s : State) {off : Nat} (v : Word) (halign : off % 4 = 0) (h : ¬ (0x020 ≤ off ∧ off < 0x040)) :
    (writeWord s off v).CK = s.CK := by
  simp only [writeWord, writeByte]
  rw [writeLoc_CK _ _ (by omega), writeLoc_CK _ _ (by omega), writeLoc_CK _ _ (by omega), writeLoc_CK _ _ (by omega)]

/-- R25: the host writes CK through its window offsets, or resets it. -/
theorem hostCycle_CK {s t : State} (h : hostCycle s = .next t) (hchanged : t.CK ≠ s.CK) :
    (s.pending = none ∧ ∃ off v q, s.queue = .access (.write off 4 v) :: q ∧ 0x020 ≤ off.toNat ∧ off.toNat < 0x040) ∨
      ∃ q, s.queue = .reset :: q := by
  rcases hostCycle_next h with ⟨-, rfl⟩ | ⟨q, -, rfl⟩ | ⟨off, q, -, -, -, rfl⟩ | ⟨v, q, -, -, rfl⟩ |
    ⟨off, v, q, hq, hidle, halign, -, rfl⟩ | ⟨q, -, rfl⟩ | ⟨q, hq, rfl⟩
  case inr.inr.inr.inr.inl =>
    refine .inl ⟨hidle, off, v, q, hq, ?_⟩
    by_contra hoff
    exact hchanged (writeWord_CK _ v halign hoff)
  case inr.inr.inr.inr.inr.inr => exact .inr ⟨q, hq⟩
  all_goals exact absurd (by simp) hchanged

/-- R26: no bus cycle of the host but reset changes BY. -/
theorem hostCycle_BY {s t : State} (h : hostCycle s = .next t) (hchanged : t.BY ≠ s.BY) : ∃ q, s.queue = .reset :: q := by
  rcases hostCycle_next h with ⟨-, rfl⟩ | ⟨q, -, rfl⟩ | ⟨off, q, -, -, -, rfl⟩ | ⟨v, q, -, -, rfl⟩ |
    ⟨off, v, q, -, -, -, -, rfl⟩ | ⟨q, -, rfl⟩ | ⟨q, hq, rfl⟩
  case inr.inr.inr.inr.inr.inr => exact ⟨q, hq⟩
  all_goals exact absurd (by simp) hchanged

/-- R26, R35: the commands that write BY. -/
theorem commandResult_BY {i : Instr} {s : State} (hchanged : (commandResult i s).BY ≠ s.BY) : i = .gfmul ∨ i = .sbox := by
  cases hcheck : check i s.status with
  | some e => exact absurd (by rw [commandResult_of_check_eq_some hcheck, State.setErr_BY]) hchanged
  | none =>
    rw [commandResult_of_check_eq_none hcheck] at hchanged
    cases i
    case gfmul => exact .inl rfl
    case sbox => exact .inr rfl
    all_goals exact absurd rfl hchanged

/-- Settles O49: the core's step by `coreStep_frame` and `commandResult_BY`, a bus cycle by `hostCycle_CK` and `hostCycle_BY`. -/
theorem keyAndResultRegisterWriters : Obligations.KeyAndResultRegisterWriters := by
  intro s t hstep
  rcases step_turn s with ⟨cmd, hpending, hwait, hreset⟩ | hhost
  · rw [step_core hpending hwait hreset] at hstep
    refine ⟨fun hCK => absurd (coreStep_frame hstep).2 hCK, fun hBY => .inl ⟨cmd, hpending, hwait, ?_⟩⟩
    obtain ⟨i, hdecode, rfl⟩ | ⟨why, -, rfl⟩ := coreStep_next hstep
    · obtain rfl | rfl := commandResult_BY hBY
      · exact .inl hdecode
      · exact .inr hdecode
    · exact absurd rfl hBY
  · rw [step_host hhost] at hstep
    refine ⟨fun hCK => ?_, fun hBY => .inr ?_⟩
    · simpa using hostCycle_CK hstep (by simpa using hCK)
    · simpa using hostCycle_BY hstep (by simpa using hBY)

end Sys2Proof.Proofs
end

section
/-! PROOFS. The core's step of a legal command, and reset (70_reset_and_hazards.md R190, R191, R195). -/

namespace Sys2Proof.Proofs

open Sys2Proof.Machine

/-- Settles O30: the core's step is due, and `exec` answers `commandResult`. -/
theorem stepRunsPendingCommand : Obligations.StepRunsPendingCommand := by
  intro s cmd i hpending hwait hreset hdecode
  rw [step_of_decode_command hpending hwait hreset hdecode, exec_eq]
  rfl

/-- A command word laid out in bus order is the word that the decoder reads (R42, R69). -/
theorem decode_of_decodeTableWord {nbits w : Nat} {i : Instr} (h : decodeTableWord nbits w = some i) :
    decode (tableWord nbits w) = .command i := by
  rw [decodeTableWord, commandBytes, decodeBytes, wordOf_byteOf] at h
  cases hdecode : decode (tableWord nbits w) with
  | command i' => rw [hdecode] at h; cases h; rfl
  | illegal why => rw [hdecode] at h; cases h

theorem resetNow_withFetchWord (s : State) (nbits w : Nat) : resetNow (s.withFetchWord nbits w).queue = false := by
  rw [State.withFetchWord, State.setQueue_queue]
  split
  · rw [resetNow]
  · next h => exact Bool.of_not_eq_true h

/-- Settles O32: the placed word is pending, nothing is left to wait, and no reset is applied. -/
theorem placedWordRunsNext : Obligations.PlacedWordRunsNext := by
  intro s w i hw
  exact stepRunsPendingCommand (s.withFetchWord 32 w) (tableWord 32 w) i rfl rfl (resetNow_withFetchWord s 32 w)
    (decode_of_decodeTableWord hw)

/-- Settles O43: by `step_reset` and `step_resetDuring`; the countdown touches none of the three fields that go on. -/
theorem resetStep : Obligations.ResetStep := by
  refine fun s q => ⟨fun hq => ?_, fun a => step_resetDuring⟩
  rw [step_reset hq]
  simp only [State.applyReset, State.setQueue_queue, State.setQueue_draws, State.setQueue_recorded, State.tick_draws,
    State.tick_recorded]

end Sys2Proof.Proofs
end

section
/-! PROOFS. The register window: its map, and the accesses of an idle or busy core (20_memory.md R42 to R49; 10_state.md R28, R29; 70_reset_and_hazards.md R197, R199). -/

namespace Sys2Proof.Proofs

open Sys2Proof.Machine Sys2Proof.Safety

/- ---- The register map ---- -/

section
variable (s : State)

theorem windowByte_ST (i : Fin 16) : windowByte s i.val = s.ST[i] := by
  rw [windowByte, locate, dif_pos i.isLt, readLoc]

theorem windowByte_RK (i : Fin 16) : windowByte s (0x010 + i.val) = s.RK[i] := by
  rw [windowByte, locate, dif_neg (by omega), dif_pos (by omega), readLoc]
  simp only [Nat.add_sub_cancel_left]

theorem windowByte_CK (i : Fin 32) : windowByte s (0x020 + i.val) = s.CK[i] := by
  rw [windowByte, locate, dif_neg (by omega), dif_neg (by omega), dif_pos (by omega), readLoc]
  simp only [Nat.add_sub_cancel_left]

theorem windowByte_CMD (j : Fin 4) : windowByte s (0x044 + j.val) = .value (byteOf s.CMD j) := by
  fin_cases j <;> rfl

theorem windowByte_STATUS (j : Fin 4) : windowByte s (0x048 + j.val) = .value (byteOf (statusWord s.status) j) := by
  fin_cases j <;> rfl

theorem windowByte_W (i : Fin 60) (j : Fin 4) : windowByte s (0x050 + 4 * i.val + j.val) = s.W[i][j] := by
  rcases locate_cases (0x050 + 4 * i.val + j.val) with ⟨k, g, -⟩ | ⟨k, g, -⟩ | ⟨k, g, -⟩ | ⟨g, -⟩ | ⟨g, -⟩ | ⟨g, -⟩ |
    ⟨k, g, -⟩ | ⟨k, g, -⟩ | ⟨k, l, g, e⟩ | ⟨g, -⟩
  case inr.inr.inr.inr.inr.inr.inr.inr.inl =>
    obtain rfl : i = k := Fin.ext (by omega)
    obtain rfl : j = l := Fin.ext (by omega)
    rw [windowByte, e, readLoc]
  all_goals omega

end

/-- Settles O34: one lemma a register, and `windowByte_reserved` for the rest. -/
theorem registerMap : Obligations.RegisterMap := fun s =>
  ⟨windowByte_ST s, windowByte_RK s, windowByte_CK s, rfl, rfl, rfl, rfl, windowByte_CMD s, windowByte_STATUS s,
    fun j => windowByte_reserved s (.inr (.inl (by omega))), windowByte_W s,
    fun _ ha _ => windowByte_reserved s (.inr (.inr ha))⟩

/- ---- STATUS and CMD ---- -/

theorem readWord_CMD (s : State) : readWord s cmdOffset.toNat = s.CMD ∧ wordHeld s cmdOffset.toNat = true := by
  obtain ⟨hword, hheld⟩ := readWord_held (windowByte_CMD s 0) (windowByte_CMD s 1) (windowByte_CMD s 2) (windowByte_CMD s 3)
  exact ⟨hword.trans (wordOf_byteOf _), hheld⟩

theorem readWord_STATUS (s : State) :
    readWord s statusOffset.toNat = statusWord s.status ∧ wordHeld s statusOffset.toNat = true := by
  obtain ⟨hword, hheld⟩ :=
    readWord_held (windowByte_STATUS s 0) (windowByte_STATUS s 1) (windowByte_STATUS s 2) (windowByte_STATUS s 3)
  exact ⟨hword.trans (wordOf_byteOf _), hheld⟩

/-- R197: what a read of STATUS or CMD does, idle or busy. -/
theorem step_read_any {s : State} {off : BitVec 10} {q : List HostAction} (hturn : s.pending = none ∨ 0 < s.wait)
    (hoff : busyReadable off) (hq : s.queue = .access (.read off 4) :: q) :
    step s = .next (((s.tick.setQueue q).recordUnless (wordHeld s.tick off.toNat) .hostReadBottom).respond
      (.data (readWord s.tick off.toNat))) := by
  have halign : off.toNat % 4 = 0 := by rcases hoff with rfl | rfl <;> rfl
  rw [step_access hturn hq]
  simp [hostAccess, hostRead, halign, hoff]

/-- The countdown, as an update of the state. -/
theorem tick_eq (s : State) : s.tick = { s with wait := if s.pending = none then s.wait else s.wait - 1 } := by
  cases hp : s.pending with
  | none => rw [tick_idle hp, if_pos rfl, ← hp]
  | some cmd => simp [State.tick, hp, State.setWait]

/-- A field placed above a number that fits below it is added to it. -/
theorem shiftLeft_or_ofNat {n x : Nat} (hx : x < 2 ^ n) (a : Nat) :
    BitVec.ofNat 32 a <<< n ||| BitVec.ofNat 32 x = BitVec.ofNat 32 (x + 2 ^ n * a) := by
  have hshift : BitVec.ofNat 32 a <<< n = BitVec.ofNat 32 (a <<< n) :=
    BitVec.eq_of_toNat_eq (by simp [Nat.shiftLeft_eq])
  rw [hshift, ← BitVec.ofNat_or, ← Nat.shiftLeft_add_eq_or_of_lt hx, Nat.shiftLeft_eq, Nat.mul_comm, Nat.add_comm]

/-- R29: the STATUS word as a sum of its fields. -/
theorem statusWord_eq_sum (t : Status) :
    statusWord t = BitVec.ofNat 32 (t.busy.toNat + 2 ^ 8 * t.err.toNat + 2 ^ 16 * t.ksv.toNat + 2 ^ 20 * t.ksNk.toNat +
      2 ^ 24 * t.ksNr.toNat) := by
  have hbusy := t.busy.toNat_lt
  have herr := t.err.isLt
  have hksv := t.ksv.toNat_lt
  have hnk := t.ksNk.isLt
  simp only [statusWord, ← BitVec.ofNat_toNat, BitVec.toNat_ofBool, BitVec.or_assoc]
  rw [shiftLeft_or_ofNat (by omega), shiftLeft_or_ofNat (by omega), shiftLeft_or_ofNat (by omega),
    shiftLeft_or_ofNat (by omega)]

/-- Settles O38: the read is made idle or busy, and gives the register's word, which holds no ⊥. -/
theorem statusAndCmdReads : Obligations.StatusAndCmdReads := by
  refine fun s q hturn => ⟨fun hq => ?status, fun hq => ?cmd⟩
  case status =>
    obtain ⟨hword, hheld⟩ := readWord_STATUS s.tick
    rw [step_read_any hturn (.inr rfl) hq, hword, hheld, State.tick_status, statusWord_eq_sum, tick_eq]
    rfl
  case cmd =>
    obtain ⟨hword, hheld⟩ := readWord_CMD s.tick
    rw [step_read_any hturn (.inl rfl) hq, hword, hheld, State.tick_CMD, tick_eq]
    rfl

/- ---- An idle core ---- -/

/-- R195, R199: the host's write of CMD. -/
theorem step_write_cmd {s : State} {v : Word} {q : List HostAction} (hidle : s.pending = none)
    (hq : s.queue = .access (.write cmdOffset 4 v) :: q) : step s = .next (((s.setQueue q).issue v).respond .written) := by
  have halign : cmdOffset.toNat % 4 = 0 := rfl
  rw [step_access_idle hidle hq]
  simp [hostAccess, hostWrite, hidle, halign]

/-- Settles O33: the write issues the command. -/
theorem cmdWriteIssues : Obligations.CmdWriteIssues := fun _ _ _ hidle hq => step_write_cmd hidle hq

/-- R42: each byte of a word written to operand registers. -/
theorem windowByte_writeWord_same (s : State) {off : Nat} (v : Word) (hoff : off + 3 < 0x042) (j : Fin 4) :
    windowByte (writeWord s off v) (off + j) = .value (byteOf v j) := by
  rw [windowByte_writeWord s off v _ hoff]
  fin_cases j <;> simp

theorem windowByte_writeWord_other (s : State) {off a : Nat} (v : Word) (hoff : off + 3 < 0x042)
    (ha : a < off ∨ off + 4 ≤ a) : windowByte (writeWord s off v) a = windowByte s a := by
  rw [windowByte_writeWord s off v a hoff, if_neg (by omega), if_neg (by omega), if_neg (by omega), if_neg (by omega)]

/-- A word written to operand registers is read back. -/
theorem readWord_writeWord (s : State) {off : Nat} (v : Word) (hoff : off + 3 < 0x042) :
    readWord (writeWord s off v) off = v ∧ wordHeld (writeWord s off v) off = true := by
  have hbyte := windowByte_writeWord_same s v hoff
  obtain ⟨hword, hheld⟩ := readWord_held (hbyte 0) (hbyte 1) (hbyte 2) (hbyte 3)
  exact ⟨hword.trans (wordOf_byteOf v), hheld⟩

@[simp] theorem windowByte_respond (s : State) (r : Response) (a : Nat) :
    windowByte (s.respond r) a = windowByte s a := rfl

@[simp] theorem windowByte_setQueue (s : State) (q : List HostAction) (a : Nat) :
    windowByte (s.setQueue q) a = windowByte s a := rfl

@[simp] theorem readWord_respond (s : State) (r : Response) (off : Nat) : readWord (s.respond r) off = readWord s off := rfl

@[simp] theorem wordHeld_respond (s : State) (r : Response) (off : Nat) : wordHeld (s.respond r) off = wordHeld s off := rfl

/-- Settles O35: the write changes the four bytes at its offset alone, and the read gives those back. -/
theorem operandWriteThenRead : Obligations.OperandWriteThenRead := by
  intro s off v q hidle halign hoff hq
  have hcmd : off ≠ cmdOffset := by
    rintro rfl
    exact absurd hoff (by decide)
  have hlast : off.toNat + 3 < 0x042 := by omega
  obtain ⟨hword, hheld⟩ := readWord_writeWord (s.setQueue (.access (.read off 4) :: q)) v hlast
  refine ⟨_, _, step_write_idle hidle halign hcmd hq,
    step_read_idle (by simpa using hidle) halign (by rw [State.respond_queue, writeWord_queue, State.setQueue_queue]),
    ?data, ?recorded, fun j => ?byte, fun a ha => ?other⟩
  case data => rw [State.respond_resp, readWord_respond, hword]
  case recorded => simp [hheld]
  case byte => rw [windowByte_respond, windowByte_writeWord_same _ v hlast, byteOf]
  case other => rw [windowByte_respond, windowByte_writeWord_other _ v hlast ha, windowByte_setQueue]

/-- Settles O36: the bytes at 0x040 to 0x042 are BA, BB and BY, of which a write reaches the first two. -/
theorem byteopsWriteAndRead : Obligations.ByteopsWriteAndRead := by
  refine ⟨fun s v q hidle hq => ?write, fun s a b y q hidle hq hBA hBB hBY => ?read⟩
  case write =>
    rw [step_write_idle hidle (by decide) (by decide) hq]
    rfl
  case read =>
    obtain ⟨hword, hheld⟩ : readWord s 0x040 = wordOf a b y 0 ∧ wordHeld s 0x040 = true := readWord_held hBA hBB hBY rfl
    have hpacked : wordOf a b y 0 = a.zeroExtend 32 ||| (b.zeroExtend 32 <<< 8) ||| (y.zeroExtend 32 <<< 16) := by
      simp [wordOf]
    have hoff : (0x040 : BitVec 10).toNat = 0x040 := rfl
    rw [step_read_idle hidle (by decide) hq, hoff, hword, hheld, hpacked]
    rfl

theorem wordHeld_eq_false_of_isBottom {s : State} {off : Nat} (h : ∃ j : Fin 4, isBottom (windowByte s (off + j.val))) :
    wordHeld s off = false := by
  obtain ⟨j, hj⟩ := h
  rw [wordHeld_eq_false]
  fin_cases j
  · exact .inl hj
  · exact .inr (.inl hj)
  · exact .inr (.inr (.inl hj))
  · exact .inr (.inr (.inr hj))

/-- Settles O60: the read is recorded because its word holds a ⊥ byte, and gives `readWord`, the patterns in order. -/
theorem readOfBottomGivesPatterns : Obligations.ReadOfBottomGivesPatterns := by
  intro s off q hidle halign hq hbottom
  rw [step_read_idle hidle halign hq, wordHeld_eq_false_of_isBottom hbottom]
  rfl

/-- Settles O39: with a ⊥ byte as in O60; without one the word is packed of the four values and nothing is recorded. -/
theorem readOfBottomIsRecorded : Obligations.ReadOfBottomIsRecorded := by
  refine fun s off q hidle halign hq =>
    ⟨fun hbottom => ⟨_, readOfBottomGivesPatterns s off q hidle halign hq hbottom, rfl⟩, fun b hb => ?held⟩
  case held =>
    obtain ⟨hword, hheld⟩ := readWord_held (hb 0) (hb 1) (hb 2) (hb 3)
    have hread := step_read_idle hidle halign hq
    rw [show readWord s off.toNat = _ from hword, show wordHeld s off.toNat = true from hheld] at hread
    exact hread

/- ---- Accesses that stop ---- -/

/-- Settles O40: the step makes the access, which is looked at for its width and then for its alignment. -/
theorem misalignedAndNarrowAccessesFault : Obligations.MisalignedAndNarrowAccessesFault := by
  refine fun s off bytes v q hturn hq => ⟨fun hwidth => ?width, fun hbytes halign => ?alignment⟩
  case width =>
    obtain ⟨hread, hwrite⟩ := hostAccess_badWidth hwidth off v (s.tick.setQueue q)
    rcases hq with hq | hq
    · exact (step_access hturn hq).trans hread
    · exact (step_access hturn hq).trans hwrite
  case alignment =>
    subst hbytes
    obtain ⟨hread, hwrite⟩ := hostAccess_misaligned halign v (s.tick.setQueue q)
    rcases hq with hq | hq
    · exact (step_access hturn hq).trans hread
    · exact (step_access hturn hq).trans hwrite

/-- Settles O41: of a busy core the bus cycle makes only STATUS and CMD reads. -/
theorem busyAccessFaults : Obligations.BusyAccessFaults := by
  refine fun s cmd off v q hpending hwait halign => ⟨fun hq hcmd hstatus => ?read, fun hq => ?write⟩
  case read =>
    have hoff : ¬ busyReadable off := not_or.mpr ⟨hcmd, hstatus⟩
    rw [step_access (.inr hwait) hq]
    simp [hostAccess, hostRead, hpending, halign, hoff]
  case write =>
    rw [step_access (.inr hwait) hq]
    simp [hostAccess, hostWrite, hpending, halign]

end Sys2Proof.Proofs
end

section
/-! PROOFS. The commands one by one: result, completion, frame, failing checks, ⊥ operands, words and worked examples (40_gf_multiply.md R81; 41_substitution.md R92, R94; 42_shift_rows.md R111; 43_mix_columns.md R121; 44_add_round_key.md R131; 45_key_schedule.md R146). -/

namespace Sys2Proof.Proofs

open Sys2Proof.Machine Sys2Proof.Safety

/- ---- ⊥ operands, and registers written as vectors of values ---- -/

/-- R33: a command that passes its check on a ⊥ operand byte completes and records the model fault. -/
theorem exec_of_not_operandsHeld {i : Instr} {s : State} (hcheck : check i s.status = none)
    (hbottom : operandsHeld i s = false) :
    ∃ t, exec i s = .next t ∧ t.recorded = s.recorded ++ [.commandUsedBottom] := by
  obtain ⟨-, -, -, -, -, -, -, -, -, hrecorded⟩ := commandEffect_frame i s
  refine ⟨_, exec_eq i s, ?_⟩
  simp [commandResult_of_check_eq_none hcheck, hrecorded, hbottom]

theorem allHeld_eq_false_of_isBottom {n : Nat} {v : Vector RegByte n} (i : Fin n) (h : isBottom v[i]) :
    allHeld v.toList = false :=
  allHeld_toList_eq_false.mpr ⟨i, i.isLt, h⟩

theorem known_tabulate {n : Nat} (f : Fin n → Byte) : known (tabulate f) = tabulate fun i => .value (f i) := by
  ext1 i hi
  rw [known_getElem, tabulate_getElem, tabulate_getElem]

/- ---- GFMUL and SBOX ---- -/

theorem exec_gfmul {s : State} {a b : Byte} (hBA : s.BA = .value a) (hBB : s.BB = .value b) :
    exec .gfmul s = .next ((s.setBY (gfMultiply a b)).setErr 0) := by
  rw [exec_of_operandsHeld rfl (by rw [operandsHeld, operandBytes, hBA, hBB]; rfl), commandWrites, hBA, hBB,
    RegByte.pattern, RegByte.pattern]

theorem exec_sbox {s : State} {a : Byte} (hBA : s.BA = .value a) :
    exec .sbox s = .next ((s.setBY (subByte a)).setErr 0) := by
  rw [exec_of_operandsHeld rfl (by rw [operandsHeld, operandBytes, hBA]; rfl), commandWrites, hBA, RegByte.pattern]

/-- Settles O17: `exec_gfmul`, and the laws of the multiplier. -/
theorem gfmulResult : Obligations.GfmulResult := by
  refine ⟨fun s a b => exec_gfmul, fun s hbottom => ?bottom, fun cmd h => ?word, by decide,
    fun v => ⟨gfMultiply_zero v, ?zeroLeft, gfMultiply_one v⟩, gfMultiply_comm, by decide, by decide⟩
  case bottom =>
    refine exec_of_not_operandsHeld rfl (allHeld_eq_false.mpr ?_)
    rcases hbottom with h | h
    · exact ⟨s.BA, by simp [operandBytes], h⟩
    · exact ⟨s.BB, by simp [operandBytes], h⟩
  case word => exact decode_of_match (op := 1) (by decide) h
  case zeroLeft => rw [gfMultiply_comm, gfMultiply_zero]

/-- No byte is its own entry of R90's table. -/
theorem subByte_ne_self (b : Byte) : subByte b ≠ b := by
  revert b
  decide +kernel

/-- Settles O18: `exec_sbox`, and entries of the table. -/
theorem sboxResult : Obligations.SboxResult := by
  refine ⟨fun s a => exec_sbox, fun s hbottom => ?bottom, fun cmd h => ?word, by decide, subByte_ne_self,
    by decide, by decide, by decide⟩
  case bottom => exact exec_of_not_operandsHeld rfl (allHeld_eq_false.mpr ⟨s.BA, by simp [operandBytes], hbottom⟩)
  case word => exact decode_of_match (op := 2) (by decide) h

/- ---- SUBBYTES, SHIFTROWS and MIXCOLUMNS ---- -/

section
variable {s : State} {b : Block} (hST : s.ST = known b)
include hST

theorem exec_subbytes : exec (.subbytes 16) s = .next ((s.setST (subBytes b)).setErr 0) := by
  rw [exec_of_operandsHeld rfl (by rw [operandsHeld, operandBytes, hST, allHeld_known]), commandWrites, readST, hST,
    patterns_known]

theorem exec_shiftrows : exec (.shiftrows 16) s = .next ((s.setST (shiftRows b)).setErr 0) := by
  rw [exec_of_operandsHeld rfl (by rw [operandsHeld, operandBytes, hST, allHeld_known]), commandWrites, readST, hST,
    patterns_known]

theorem exec_mixcolumns : exec (.mixcolumns 16) s = .next ((s.setST (mixColumns b)).setErr 0) := by
  rw [exec_of_operandsHeld rfl (by rw [operandsHeld, operandBytes, hST, allHeld_known]), commandWrites, readST, hST,
    patterns_known]

end

/-- Settles O19: `exec_subbytes`, the check of SLEN, and entries of the table. -/
theorem subbytesResult : Obligations.SubbytesResult := by
  refine ⟨fun s b hST => ?completes, fun s slen hslen => ?fails, fun s i hbottom => ?bottom, fun cmd h => ?word,
    by decide, by decide, by decide, by decide +kernel⟩
  case completes =>
    rw [exec_subbytes hST, ← known_tabulate]
    rfl
  case fails => exact exec_of_check_eq_some (check_blockLength_fails hslen s.status).1
  case bottom => exact exec_of_not_operandsHeld rfl (allHeld_eq_false_of_isBottom i hbottom)
  case word => exact decode_of_match (op := 3) (by decide) h

/-- R110: the source index of each byte. -/
theorem shiftRows_eq_bytes (b : Block) :
    shiftRows b =
      #v[b[0], b[5], b[10], b[15], b[4], b[9], b[14], b[3], b[8], b[13], b[2], b[7], b[12], b[1], b[6], b[11]] := by
  refine block_ext fun r c => ?_
  rw [entry_shiftRows]
  fin_cases r <;> fin_cases c <;> rfl

/-- R110: a row of one byte has no rotation to show. -/
theorem shiftRows_constantRows (row : KWord) :
    shiftRows (tabulate fun i : Fin 16 => row[i.val % 4]'(by omega)) =
      tabulate fun i : Fin 16 => row[i.val % 4]'(by omega) := by
  refine block_ext fun r c => ?_
  rw [entry_shiftRows, entry_tabulate, entry_tabulate]
  simp only [Nat.add_mul_mod_self_left]

/-- Settles O20: `exec_shiftrows`, the check of SLEN, and the rotation of the rows. -/
theorem shiftrowsResult : Obligations.ShiftrowsResult := by
  refine ⟨fun s b hST => ?completes, fun s slen hslen => ?fails, fun s i hbottom => ?bottom, fun cmd h => ?word,
    by decide, shiftRows_constantRows, shiftRows_iterate_four, by decide +kernel⟩
  case completes =>
    rw [exec_shiftrows hST, shiftRows_eq_bytes]
    rfl
  case fails => exact exec_of_check_eq_some (check_blockLength_fails hslen s.status).2.1
  case bottom => exact exec_of_not_operandsHeld rfl (allHeld_eq_false_of_isBottom i hbottom)
  case word => exact decode_of_match (op := 4) (by decide) h

theorem mixMatrix_rowSum (r : Fin 4) :
    mixMatrix[r][0] ^^^ mixMatrix[r][1] ^^^ mixMatrix[r][2] ^^^ mixMatrix[r][3] = 1#8 := by
  revert r
  decide

/-- The product of a matrix row with a column of one byte: the row's sum times the byte. -/
theorem mixEntry_constant (row : KWord) (x : Byte) :
    mixEntry row (tabulate fun _ => x) = gfMultiply (row[0] ^^^ row[1] ^^^ row[2] ^^^ row[3]) x := by
  simp only [mixEntry, tabulate_getElem, gfMultiply_xor_left]

/-- R121: the entries of each matrix row add up to 1, so a column of one byte stays. -/
theorem mixColumns_constantColumns (v : KWord) :
    mixColumns (tabulate fun i : Fin 16 => v[i.val / 4]'(by omega)) =
      tabulate fun i : Fin 16 => v[i.val / 4]'(by omega) := by
  have hcolumn (c : Fin 4) : column (tabulate fun i : Fin 16 => v[i.val / 4]'(by omega)) c = tabulate fun _ => v[c] := by
    ext1 k hk
    simp only [column, tabulate_getElem, show (4 * c.val + k) / 4 = c.val by omega, Fin.getElem_fin]
  refine block_ext fun r c => ?_
  have hplace : (r.val + 4 * c.val) / 4 = c.val := by omega
  rw [entry_mixColumns, hcolumn, mixEntry_constant, mixMatrix_rowSum, gfMultiply_one_left, entry_tabulate]
  simp only [hplace, Fin.getElem_fin]

/-- Settles O21: `exec_mixcolumns`, the check of SLEN, and the matrix product. -/
theorem mixcolumnsResult : Obligations.MixcolumnsResult := by
  refine ⟨fun s b hST => ?completes, fun s slen hslen => ?fails, fun s i hbottom => ?bottom, fun cmd h => ?word,
    by decide, mixColumns_constantColumns, by decide +kernel⟩
  case completes => exact exec_mixcolumns hST
  case fails => exact exec_of_check_eq_some (check_blockLength_fails hslen s.status).2.2
  case bottom => exact exec_of_not_operandsHeld rfl (allHeld_eq_false_of_isBottom i hbottom)
  case word => exact decode_of_match (op := 5) (by decide) h

/- ---- ADDROUNDKEY ---- -/

theorem exec_addroundkey {s : State} {b k : Block} (hST : s.ST = known b) (hRK : s.RK = known k) :
    exec (.addroundkey 16 16) s = .next ((s.setST (addRoundKey b k)).setErr 0) := by
  have hheld : operandsHeld (.addroundkey 16 16) s = true := by
    rw [operandsHeld, operandBytes, hST, hRK, allHeld_append, allHeld_known, allHeld_known, Bool.and_self]
  rw [exec_of_operandsHeld rfl hheld, commandWrites, readST, readRK, hST, hRK, patterns_known, patterns_known]

theorem addRoundKey_zero (b : Block) : addRoundKey b (tabulate fun _ => 0) = b := by
  refine block_ext fun r c => ?_
  rw [entry_addRoundKey, entry_tabulate, BitVec.ofNat_eq_ofNat, BitVec.xor_zero]

theorem addRoundKey_self (b : Block) : addRoundKey b b = tabulate fun _ => 0 := by
  refine block_ext fun r c => ?_
  rw [entry_addRoundKey, entry_tabulate, BitVec.xor_self]
  rfl

/-- Settles O22: `exec_addroundkey`, the check of the two lengths, and the laws of XOR. -/
theorem addroundkeyResult : Obligations.AddroundkeyResult := by
  refine ⟨fun s b k hST hRK => ?completes, fun s slen klen hlen => ?fails, fun s i hbottom => ?bottom,
    fun cmd h => ?word, by decide, fun b => ⟨addRoundKey_zero b, addRoundKey_self b⟩, addRoundKeyIsInvolution,
    by decide +kernel⟩
  case completes =>
    rw [exec_addroundkey hST hRK, ← known_tabulate]
    rfl
  case fails => exact exec_of_check_eq_some (check_addroundkey_fails hlen s.status)
  case bottom =>
    refine exec_of_not_operandsHeld rfl ?_
    rw [operandsHeld, operandBytes, allHeld_append, Bool.and_eq_false_iff]
    exact hbottom.imp (allHeld_eq_false_of_isBottom i) (allHeld_eq_false_of_isBottom i)
  case word => exact decode_of_match (op := 6) (by decide) h

/- ---- EXPANDKEY ---- -/

/-- R35, R152: an idle core's access does not reach the schedule. -/
theorem step_access_schedule {s t : State} {a : Access} {q : List HostAction} (hidle : s.pending = none)
    (hq : s.queue = .access a :: q) (hstep : step s = .next t) : sameSchedule s t := by
  obtain hsame | ⟨_, _, hpending, -⟩ | ⟨_, hreset, -⟩ := step_schedule hstep
  · exact hsame
  · exact absurd (hidle.symm.trans hpending) (by simp)
  · exact absurd (hq.symm.trans hreset) (by simp)

/-- Settles O23: `exec_expandkey` and the schedule memory it writes, the check of KLEN, and the words of the all-zero key. -/
theorem expandkeyResult : Obligations.ExpandkeyResult := by
  refine ⟨fun s klen key hlen hkey => ?completes, fun s klen h16 h24 h32 => ?fails,
    fun s klen i hlen hi hbottom => ?bottom, fun cmd h => ?word, ⟨by decide, by decide, by decide⟩,
    fun s t v off q hidle _ _ hq hstep => (step_access_schedule hidle hq hstep).1, expandKey_zeroKey⟩
  case completes =>
    have hwords := expandKey_length (klen / 4) key
    refine ⟨_, _, exec_expandkey hlen hkey, fun i hi => ?schedule, fun i j hi => ?above⟩
    case schedule => rw [State.setSchedule_W, Fin.getElem_fin, scheduleMemory_getElem, if_pos (by omega)]
    case above => exact scheduleMemory_bottom _ _ _ i.isLt _ j.isLt (by omega)
  case fails => exact exec_of_check_eq_some (check_expandkey_fails h16 h24 h32 s.status)
  case bottom =>
    have hmem : s.CK[i] ∈ keyBytes s klen := by
      rw [keyBytes, List.mem_take_iff_getElem]
      exact ⟨i, by simp; omega, by simp⟩
    exact exec_of_not_operandsHeld (if_pos hlen) (allHeld_eq_false.mpr ⟨_, hmem, hbottom⟩)
  case word => exact decode_of_match (op := 7) (by decide) h

end Sys2Proof.Proofs
end

section
/-! PROOFS. All commands together: completion, the row of R35, and the bytes of the window a command leaves (10_state.md R33, R35; 20_memory.md R47). -/

namespace Sys2Proof.Proofs

open Sys2Proof.Machine Sys2Proof.Safety

/- ---- Completion ---- -/

/-- R173: ERR after a command. -/
theorem commandResult_err (i : Instr) (s : State) :
    (check i s.status = none → (commandResult i s).status.err = 0) ∧
      ∀ e, check i s.status = some e → (commandResult i s).status.err = e.code := by
  refine ⟨fun hcheck => ?_, fun e hcheck => ?_⟩
  · rw [commandResult_of_check_eq_none hcheck, State.setErr_status]
  · rw [commandResult_of_check_eq_some hcheck, State.setErr_status]

/-- R33: what a command records. -/
theorem commandResult_recorded (i : Instr) (s : State) :
    (commandResult i s).recorded = s.recorded ++
      if check i s.status = none ∧ operandsHeld i s = false then [.commandUsedBottom] else [] := by
  cases hcheck : check i s.status with
  | some e => simp [commandResult_of_check_eq_some hcheck]
  | none =>
    obtain ⟨-, -, -, -, -, -, -, -, -, hrecorded⟩ := commandEffect_frame i s
    rw [commandResult_of_check_eq_none hcheck, State.setErr_recorded, hrecorded]
    cases operandsHeld i s <;> simp

/-- R145: byte `4m + j` of the operand of LOADRK is byte `j` of the word `4r + m`. -/
theorem roundBytes_getElem (s : State) (r : Nat) (m j : Fin 4) :
    (roundBytes s r)[4 * m.val + j.val]'(by omega) = scheduleByte s (4 * r + m.val) j := by
  have hword : (4 * m.val + j.val) / 4 = m.val := by omega
  have hbyte : (4 * m.val + j.val) % 4 = j.val := by omega
  simp only [roundBytes, tabulate_getElem, hword, hbyte]

/-- R145: a byte of the round key that LOADRK reads. -/
theorem readRound_getElem (s : State) (r : Nat) (m j : Fin 4) :
    (readRound s r)[4 * m.val + j.val]'(by omega) = (scheduleByte s (4 * r + m.val) j).pattern := by
  rw [readRound, patterns_getElem, roundBytes_getElem]

/-- Settles O27: `exec_eq`, what the result records and reports, and the register each command writes. -/
theorem commandsAlwaysComplete : Obligations.CommandsAlwaysComplete := by
  intro i s
  obtain ⟨hsuccess, hfailure⟩ := commandResult_err i s
  refine ⟨_, exec_eq i s, ?recorded, hfailure, fun hcheck => ⟨hsuccess hcheck, ?result⟩⟩
  case recorded =>
    rw [commandResult_recorded]
    split <;> simp
  case result =>
    rw [commandResult_of_check_eq_none hcheck]
    cases i with
    | gfmul => rfl
    | sbox => rfl
    | subbytes n => rfl
    | shiftrows n => rfl
    | mixcolumns n => rfl
    | addroundkey n k => rfl
    | expandkey n =>
      intro k hk
      have hwords := expandKey_length (n / 4) (readKey s n)
      exact (scheduleMemory_getElem _ _ _ k.isLt).trans (if_pos (by omega))
    | loadrk r =>
      intro m j
      exact (known_getElem _ _ _).trans (congrArg _ (readRound_getElem s r m j))

/- ---- The row of R35: what a command writes ---- -/

/-- R35: the registers that a command's writes leave, by destination. -/
theorem commandWrites_destination (i : Instr) (s : State) :
    (i ≠ .gfmul → i ≠ .sbox → (commandWrites i s).BY = s.BY) ∧
      ((∀ n, i ≠ .subbytes n) → (∀ n, i ≠ .shiftrows n) → (∀ n, i ≠ .mixcolumns n) → (∀ n k, i ≠ .addroundkey n k) →
        (commandWrites i s).ST = s.ST) ∧
      ((∀ r, i ≠ .loadrk r) → (commandWrites i s).RK = s.RK) ∧
      ((∀ n, i ≠ .expandkey n) → (commandWrites i s).W = s.W ∧ (commandWrites i s).draws = s.draws ∧
        (commandWrites i s).status = s.status) := by
  cases i <;> simp [commandWrites]

/-- R35: the registers that a command leaves, by destination. -/
theorem commandResult_destination (i : Instr) (s : State) :
    (i ≠ .gfmul → i ≠ .sbox → (commandResult i s).BY = s.BY) ∧
      ((∀ n, i ≠ .subbytes n) → (∀ n, i ≠ .shiftrows n) → (∀ n, i ≠ .mixcolumns n) → (∀ n k, i ≠ .addroundkey n k) →
        (commandResult i s).ST = s.ST) ∧
      ((∀ r, i ≠ .loadrk r) → (commandResult i s).RK = s.RK) ∧
      ((∀ n, i ≠ .expandkey n) → (commandResult i s).W = s.W ∧ (commandResult i s).draws = s.draws ∧
        (commandResult i s).status.ksv = s.status.ksv ∧ (commandResult i s).status.ksNk = s.status.ksNk ∧
        (commandResult i s).status.ksNr = s.status.ksNr) := by
  cases hcheck : check i s.status with
  | some e => simp [commandResult_of_check_eq_some hcheck]
  | none =>
    rw [commandResult_of_check_eq_none hcheck]
    obtain ⟨hBY, hST, hRK, hschedule⟩ := commandWrites_destination i s
    refine ⟨hBY, hST, hRK, fun hi => ?_⟩
    obtain ⟨hW, hdraws, hstatus⟩ := hschedule hi
    simp [commandEffect, hW, hdraws, hstatus]

/- ---- The row of R35: what a command reads ---- -/

/-- The two states agree on the registers that the command's row reads (R35). -/
def sameOperands (i : Instr) (s s' : State) : Prop :=
  match i with
  | .gfmul => s.BA = s'.BA ∧ s.BB = s'.BB
  | .sbox => s.BA = s'.BA
  | .subbytes _ => s.ST = s'.ST
  | .shiftrows _ => s.ST = s'.ST
  | .mixcolumns _ => s.ST = s'.ST
  | .addroundkey _ _ => s.ST = s'.ST ∧ s.RK = s'.RK
  | .expandkey n => s.CK.toList.take n = s'.CK.toList.take n
  | .loadrk r => s.status.ksv = s'.status.ksv ∧ s.status.ksNr = s'.status.ksNr ∧
      ∀ m j : Fin 4, scheduleByte s (4 * r + m.val) j = scheduleByte s' (4 * r + m.val) j

/-- The two states agree on the registers that the command's row writes, ERR left out, and W but for patterns in ⊥ bytes (R35). -/
def sameResult (i : Instr) (t t' : State) : Prop :=
  match i with
  | .gfmul => t.BY = t'.BY
  | .sbox => t.BY = t'.BY
  | .subbytes _ => t.ST = t'.ST
  | .shiftrows _ => t.ST = t'.ST
  | .mixcolumns _ => t.ST = t'.ST
  | .addroundkey _ _ => t.ST = t'.ST
  | .expandkey _ => (∀ (k : Fin 60) (j : Fin 4), agreesByte t.W[k][j] t'.W[k][j]) ∧
      t.status.ksv = t'.status.ksv ∧ t.status.ksNk = t'.status.ksNk ∧ t.status.ksNr = t'.status.ksNr
  | .loadrk _ => t.RK = t'.RK

theorem roundBytes_congr {s s' : State} {r : Nat}
    (h : ∀ m j : Fin 4, scheduleByte s (4 * r + m.val) j = scheduleByte s' (4 * r + m.val) j) :
    roundBytes s r = roundBytes s' r := by
  ext1 k hk
  simpa only [roundBytes, tabulate_getElem] using h ⟨k / 4, by omega⟩ ⟨k % 4, by omega⟩

/-- Two schedule memories of the same words differ only in the patterns above them (R146). -/
theorem agreesByte_scheduleMemory (d d' : Nat) (ws : List KWord) (k : Fin 60) (j : Fin 4) :
    agreesByte (scheduleMemory d ws)[k][j] (scheduleMemory d' ws)[k][j] := by
  by_cases hk : k.val < ws.length
  · left
    simp only [Fin.getElem_fin, scheduleMemory_getElem, if_pos hk]
  · have hbottom (d : Nat) : isBottom (scheduleMemory d ws)[k][j] :=
      scheduleMemory_bottom _ _ _ k.isLt _ j.isLt (by omega)
    exact .inr ⟨hbottom d, hbottom d'⟩

section
variable {i : Instr} {s s' : State} (h : sameOperands i s s')
include h

theorem operandBytes_of_sameOperands : operandBytes i s = operandBytes i s' := by
  cases i with
  | gfmul => simp only [operandBytes, h.1, h.2]
  | sbox => exact congrArg (fun b => [b]) h
  | subbytes n => exact congrArg Vector.toList h
  | shiftrows n => exact congrArg Vector.toList h
  | mixcolumns n => exact congrArg Vector.toList h
  | addroundkey n k => simp only [operandBytes, h.1, h.2]
  | expandkey n => exact h
  | loadrk r => exact congrArg Vector.toList (roundBytes_congr h.2.2)

theorem check_of_sameOperands : check i s.status = check i s'.status := by
  cases i with
  | loadrk r => simp only [check, roundAvailable, h.1, h.2.1]
  | _ => rfl

theorem sameResult_commandWrites : sameResult i (commandWrites i s) (commandWrites i s') := by
  cases i with
  | gfmul => simp only [sameResult, commandWrites, State.setBY_BY, h.1, h.2]
  | sbox => exact congrArg (fun b : RegByte => RegByte.value (subByte b.pattern)) h
  | subbytes n => exact congrArg (fun v => known (subBytes (patterns v))) h
  | shiftrows n => exact congrArg (fun v => known (shiftRows (patterns v))) h
  | mixcolumns n => exact congrArg (fun v => known (mixColumns (patterns v))) h
  | addroundkey n k => simp only [sameResult, commandWrites, State.setST_ST, readST, readRK, h.1, h.2]
  | expandkey n =>
    have hkey : readKey s n = readKey s' n := congrArg (List.map RegByte.pattern) h
    refine ⟨fun k j => ?_, rfl, rfl, rfl⟩
    simp only [commandWrites, State.setSchedule_W, hkey]
    exact agreesByte_scheduleMemory _ _ _ k j
  | loadrk r => exact congrArg (fun v => known (patterns v)) (roundBytes_congr h.2.2)

end

/-- ERR and the record are no part of a command's result. -/
theorem sameResult_commandEffect {i : Instr} {s s' : State} (h : sameResult i (commandWrites i s) (commandWrites i s')) :
    sameResult i ((commandEffect i s).setErr 0) ((commandEffect i s').setErr 0) := by
  cases i <;> exact h

/-- The code of an error is not that of success (R170, R173). -/
theorem check_eq_none_of_err {i : Instr} {s : State} (h : (commandResult i s).status.err = 0) :
    check i s.status = none := by
  cases hcheck : check i s.status with
  | none => rfl
  | some e =>
    rw [(commandResult_err i s).2 e hcheck] at h
    cases e <;> cases h

/-- Settles O28: the frame of `commandResult`, and the lemmas on states that agree on the row's registers. -/
theorem commandsKeepToTheirRow : Obligations.CommandsKeepToTheirRow := by
  refine ⟨fun i s t hexec => ?writes, fun i s s' (h : sameOperands i s s') => ?reads⟩
  case writes =>
    cases (exec_eq i s).symm.trans hexec
    obtain ⟨hCK, hBA, hBB, hCMD, hbusy, hpending, hwait, hqueue, hresp⟩ := commandResult_frame i s
    refine ⟨hCK, hBA, hBB, hCMD, hpending, hbusy, hwait, hqueue, hresp, ?recorded, commandResult_destination i s⟩
    case recorded =>
      rw [commandResult_recorded]
      split
      · exact .inr rfl
      · exact .inl (List.append_nil _)
  case reads =>
    have hcheck := check_of_sameOperands h
    have hheld : operandsHeld i s = operandsHeld i s' := congrArg allHeld (operandBytes_of_sameOperands h)
    refine ⟨_, _, exec_eq i s, exec_eq i s', ?err, ⟨_, commandResult_recorded i s, ?recorded⟩, fun herr => ?result⟩
    case err =>
      cases hs' : check i s'.status with
      | none => rw [(commandResult_err i s).1 (hcheck.trans hs'), (commandResult_err i s').1 hs']
      | some e => rw [(commandResult_err i s).2 e (hcheck.trans hs'), (commandResult_err i s').2 e hs']
    case recorded => rw [hcheck, hheld, commandResult_recorded]
    case result =>
      have hs := check_eq_none_of_err herr
      rw [commandResult_of_check_eq_none hs, commandResult_of_check_eq_none (hcheck.symm.trans hs)]
      exact sameResult_commandEffect (sameResult_commandWrites h)

/-- Settles O29: each byte of the window outside the destination is a register that the command leaves. -/
theorem commandsLeaveOtherWindowBytes : Obligations.CommandsLeaveOtherWindowBytes := by
  intro i s t a hexec hstatus hout
  cases (exec_eq i s).symm.trans hexec
  obtain ⟨hCK, hBA, hBB, hCMD, -⟩ := commandResult_frame i s
  obtain ⟨hBY, hST, hRK, hschedule⟩ := commandResult_destination i s
  refine windowByte_congr (fun ha => ?ST) (fun ha ha' => ?RK) (fun _ _ => hCK) (fun _ => hBA) (fun _ => hBB)
    (fun ha => ?BY) (fun _ _ => hCMD) (fun ha ha' => absurd ⟨ha, ha'⟩ hstatus) (fun ha ha' => ?W)
  case ST =>
    exact hST (by rintro n rfl; exact Nat.not_lt.mpr hout ha) (by rintro n rfl; exact Nat.not_lt.mpr hout ha)
      (by rintro n rfl; exact Nat.not_lt.mpr hout ha) (by rintro n k rfl; exact Nat.not_lt.mpr hout ha)
  case RK => exact hRK (by rintro r rfl; exact hout ⟨ha, ha'⟩)
  case BY => exact hBY (by rintro rfl; exact hout ha) (by rintro rfl; exact hout ha)
  case W => exact (hschedule (by rintro n rfl; exact hout ⟨ha, ha'⟩)).1

end Sys2Proof.Proofs
end

section
/-! PROOFS. The multiplier as the product of polynomials over GF(2) modulo `x^8 + x^4 + x^3 + x + 1`: both are additive in each factor, and doubling is multiplication by `x` (40_gf_multiply.md R83). -/

namespace Sys2Proof.Proofs

open Sys2Proof.Machine
open Polynomial (X)

/-- The polynomial over GF(2) whose coefficients are the bits of a byte (R83). -/
noncomputable def bytePoly (x : Byte) : Polynomial (ZMod 2) := ∑ i : Fin 8, if x.getLsbD i then X ^ i.val else 0

/-- The reduction polynomial of R83. -/
noncomputable def reducer : Polynomial (ZMod 2) := X ^ 8 + X ^ 4 + X ^ 3 + X + 1

theorem degree_reducer : reducer.degree = 8 := by
  unfold reducer
  compute_degree!

theorem monic_reducer : reducer.Monic := by
  unfold reducer
  monicity!

theorem degree_bytePoly_lt (x : Byte) : (bytePoly x).degree < 8 := by
  refine Polynomial.mem_degreeLT.mp (Submodule.sum_mem _ fun i _ => ?_)
  split
  · exact Polynomial.mem_degreeLT.mpr (by rw [Polynomial.degree_X_pow]; exact_mod_cast i.isLt)
  · exact Submodule.zero_mem _

@[simp] theorem bytePoly_zero : bytePoly 0#8 = 0 := by simp [bytePoly]

/-- XOR of bytes is addition of polynomials, because `1 + 1 = 0` in GF(2). -/
theorem bytePoly_xor (x y : Byte) : bytePoly (x ^^^ y) = bytePoly x + bytePoly y := by
  simp only [bytePoly, ← Finset.sum_add_distrib]
  refine Finset.sum_congr rfl fun i _ => ?_
  rw [BitVec.getLsbD_xor]
  cases x.getLsbD i <;> cases y.getLsbD i <;> simp [CharTwo.add_self_eq_zero]

theorem bytePoly_twoPow {i : Nat} (h : i < 8) : bytePoly (BitVec.twoPow 8 i) = X ^ i := by
  have hbit (j : Fin 8) : (BitVec.twoPow 8 i).getLsbD j = true ↔ j = ⟨i, h⟩ := by
    simp [Fin.ext_iff, eq_comm]
  simp only [bytePoly, hbit, Finset.sum_ite_eq', Finset.mem_univ, if_true]

/-- The class of a byte's polynomial modulo the reduction polynomial. -/
noncomputable def byteClass (x : Byte) : AdjoinRoot reducer := AdjoinRoot.mk reducer (bytePoly x)

theorem byteClass_xor (x y : Byte) : byteClass (x ^^^ y) = byteClass x + byteClass y := by
  rw [byteClass, bytePoly_xor, map_add, byteClass, byteClass]

theorem byteClass_zero : byteClass 0#8 = 0 := by rw [byteClass, bytePoly_zero, map_zero]

theorem byteClass_twoPow {i : Nat} (h : i < 8) : byteClass (BitVec.twoPow 8 i) = AdjoinRoot.root reducer ^ i := by
  rw [byteClass, bytePoly_twoPow h, map_pow, AdjoinRoot.mk_X]

/-- Folding bit 7 back by 0x1B is the reduction of `x^8` (R80). -/
theorem root_pow_eight : byteClass 0x1B = AdjoinRoot.root reducer ^ 8 := by
  have hbits : (0x1B : Byte) = .twoPow 8 4 ^^^ .twoPow 8 3 ^^^ .twoPow 8 1 ^^^ .twoPow 8 0 := by decide
  have hpoly : bytePoly 0x1B = X ^ 4 + X ^ 3 + X + 1 := by
    rw [hbits, bytePoly_xor, bytePoly_xor, bytePoly_xor, bytePoly_twoPow (by decide), bytePoly_twoPow (by decide),
      bytePoly_twoPow (by decide), bytePoly_twoPow (by decide), pow_one, pow_zero]
  rw [byteClass, hpoly, ← AdjoinRoot.mk_X, ← map_pow, AdjoinRoot.mk_eq_mk, CharTwo.sub_eq_add]
  exact dvd_of_eq (by rw [reducer]; ring)

theorem byteClass_double (x : Byte) : byteClass (double x) = AdjoinRoot.root reducer * byteClass x := by
  induction x using xor_induction with
  | zero => rw [show double 0#8 = 0#8 by decide, byteClass_zero, mul_zero]
  | xor x y hx hy => rw [double_xor, byteClass_xor, byteClass_xor, hx, hy, mul_add]
  | twoPow i hi =>
    have hdouble : ∀ i < 7, double (.twoPow 8 i) = .twoPow 8 (i + 1) := by decide
    rw [byteClass_twoPow hi, ← pow_succ']
    by_cases h : i < 7
    · rw [hdouble i h, byteClass_twoPow (by omega)]
    · obtain rfl : i = 7 := by omega
      exact root_pow_eight

theorem byteClass_iterate_double (i : Nat) (x : Byte) :
    byteClass (double^[i] x) = AdjoinRoot.root reducer ^ i * byteClass x := by
  induction i with
  | zero => rw [Function.iterate_zero_apply, pow_zero, one_mul]
  | succ i ih => rw [Function.iterate_succ_apply', byteClass_double, ih, pow_succ', mul_assoc]

theorem byteClass_gfMultiply (a b : Byte) : byteClass (gfMultiply a b) = byteClass a * byteClass b := by
  induction b using xor_induction with
  | zero => rw [show gfMultiply a 0#8 = 0#8 from gfMultiply_zero a, byteClass_zero, mul_zero]
  | xor x y hx hy => rw [gfMultiply_xor_right, byteClass_xor, byteClass_xor, hx, hy, mul_add]
  | twoPow i hi => rw [gfMultiply_twoPow hi, byteClass_iterate_double, byteClass_twoPow hi, mul_comm]

/-- Settles O6: the two sides have one class, and a polynomial of degree below 8 is the remainder of its class. -/
theorem multiplyIsPolynomialProduct : Obligations.MultiplyIsPolynomialProduct := by
  intro a b
  have hclass : AdjoinRoot.mk reducer (bytePoly (gfMultiply a b)) = AdjoinRoot.mk reducer (bytePoly a * bytePoly b) := by
    rw [map_mul]
    exact byteClass_gfMultiply a b
  calc bytePoly (gfMultiply a b) = bytePoly (gfMultiply a b) %ₘ reducer := by
        rw [(Polynomial.modByMonic_eq_self_iff monic_reducer).mpr]
        rw [degree_reducer]
        exact degree_bytePoly_lt _
    _ = bytePoly a * bytePoly b %ₘ reducer :=
        Polynomial.modByMonic_eq_of_dvd_sub monic_reducer (AdjoinRoot.mk_eq_mk.mp hclass)

end Sys2Proof.Proofs
end

section
/-! PROOFS. What a bus cycle of the host does, for each action it can make (70_reset_and_hazards.md R199). -/

namespace Sys2Proof.Proofs

open Sys2Proof.Machine

section
variable {s : State} {q : List HostAction}

theorem hostCycle_read {off : BitVec 10} (hq : s.queue = .access (.read off 4) :: q) (halign : off.toNat % 4 = 0)
    (hbusy : s.pending.isSome → busyReadable off) :
    hostCycle s = .next (((s.setQueue q).recordUnless (wordHeld s off.toNat) .hostReadBottom).respond
      (.data (readWord s off.toNat))) := by
  have hallowed : ¬ ((s.setQueue q).pending.isSome = true ∧ ¬ busyReadable off) := fun h => h.2 (hbusy h.1)
  rw [hostCycle, hq]
  show hostRead off 4 (s.setQueue q) = _
  rw [hostRead, if_neg (not_not_intro rfl), if_neg (not_not_intro halign), if_neg hallowed, wordHeld_setQueue,
    readWord_setQueue]

theorem hostCycle_writeCmd {v : Word} (hq : s.queue = .access (.write cmdOffset 4 v) :: q) (hidle : s.pending = none) :
    hostCycle s = .next (((s.setQueue q).issue v).respond .written) :=
  (step_idle hidle).symm.trans (step_write_cmd hidle hq)

theorem hostCycle_write {off : BitVec 10} {v : Word} (hq : s.queue = .access (.write off 4 v) :: q)
    (hidle : s.pending = none) (halign : off.toNat % 4 = 0) (hcmd : off ≠ cmdOffset) :
    hostCycle s = .next ((writeWord (s.setQueue q) off.toNat v).respond .written) :=
  (step_idle hidle).symm.trans (step_write_idle hidle halign hcmd hq)

/-- R73: one turn of the POLL loop. -/
theorem hostCycle_poll (hq : s.queue = .poll :: q) :
    hostCycle s =
      .next ((s.setQueue (if s.status.busy then .poll :: q else q)).respond (.data (statusWord s.status))) := by
  rw [hostCycle, hq]
  rfl

theorem hostCycle_reset (hq : s.queue = .reset :: q) : hostCycle s = .next (s.setQueue q).applyReset := by
  rw [hostCycle, hq]
  rfl

end

end Sys2Proof.Proofs
end

section
/-! PROOFS. Runs that record nothing do not depend on the patterns in ⊥ bytes (10_state.md R33; 92_eei_decisions.md D25). -/

namespace Sys2Proof.Proofs

open Sys2Proof.Machine Sys2Proof.Safety

/- ---- The core's step ---- -/

theorem agrees_commandResult {i : Instr} {s s' : State} (h : agrees s s')
    (hrecorded : (commandResult i s).recorded = s.recorded) : agrees (commandResult i s) (commandResult i s') := by
  obtain ⟨-, -, -, -, -, -, -, -, hstatus, -⟩ := id h
  cases hcheck : check i s.status with
  | some e =>
    rw [commandResult_of_check_eq_some hcheck, commandResult_of_check_eq_some (hstatus ▸ hcheck)]
    exact agrees_setErr h _
  | none =>
    have hheld : operandsHeld i s = true := by
      by_contra hbottom
      simp [commandResult_recorded, hcheck, hbottom] at hrecorded
    obtain ⟨hheld', hwrites⟩ := agrees_commandWrites h hheld
    rw [commandResult_of_check_eq_none hcheck, commandResult_of_check_eq_none (hstatus ▸ hcheck),
      commandEffect_held hheld, commandEffect_held hheld']
    exact agrees_setErr hwrites _

theorem agrees_coreStep {cmd : Word} {s s' t : State} (h : agrees s s') (hstep : coreStep cmd s = .next t)
    (hrecorded : t.recorded = s.recorded) : ∃ t', coreStep cmd s' = .next t' ∧ agrees t t' := by
  obtain ⟨i, hdecode, rfl⟩ | ⟨why, hdecode, rfl⟩ := coreStep_next hstep
  · exact ⟨_, coreStep_command s' hdecode, agrees_complete (agrees_commandResult h hrecorded)⟩
  · exact ⟨_, coreStep_illegal s' hdecode, agrees_complete (agrees_setErr h _)⟩

/- ---- The host's bus cycle ---- -/

theorem agrees_writeWord {s s' : State} (h : agrees s s') (off : Nat) (v : Word) :
    agrees (writeWord s off v) (writeWord s' off v) :=
  agrees_writeLoc (agrees_writeLoc (agrees_writeLoc (agrees_writeLoc h _ _) _ _) _ _) _ _

/-- A word that holds no ⊥ byte reads the same in agreeing states. -/
theorem agrees_readWord {s s' : State} (h : agrees s s') {off : Nat} (hheld : wordHeld s off = true) :
    wordHeld s' off = true ∧ readWord s' off = readWord s off := by
  have hbyte (a : Nat) (ha : (windowByte s a).held = true) : windowByte s a = windowByte s' a :=
    agreesByte_eq (agrees_windowByte h a) ha
  obtain ⟨h0, h1, h2, h3⟩ : (windowByte s off).held = true ∧ (windowByte s (off + 1)).held = true ∧
      (windowByte s (off + 2)).held = true ∧ (windowByte s (off + 3)).held = true := by
    simpa [wordHeld, allHeld] using hheld
  refine ⟨?_, ?_⟩
  · rw [wordHeld, ← hbyte _ h0, ← hbyte _ h1, ← hbyte _ h2, ← hbyte _ h3]
    exact hheld
  · rw [readWord, ← hbyte _ h0, ← hbyte _ h1, ← hbyte _ h2, ← hbyte _ h3, ← readWord]

theorem agrees_refl (s : State) : agrees s s :=
  ⟨fun _ => .inl rfl, fun _ => .inl rfl, fun _ => .inl rfl, .inl rfl, .inl rfl, .inl rfl, fun _ _ => .inl rfl, rfl, rfl,
    rfl, rfl, rfl, rfl, rfl, rfl⟩

theorem agrees_applyReset {s s' : State} (h : agrees s s') : agrees s.applyReset s'.applyReset := by
  obtain ⟨-, -, -, -, -, -, -, -, -, -, -, hdraws, hqueue, -, hrecorded⟩ := h
  rw [State.applyReset, State.applyReset, hdraws, hqueue, hrecorded]
  exact agrees_refl _

theorem agrees_hostCycle {s s' t : State} (h : agrees s s') (hstep : hostCycle s = .next t)
    (hrecorded : t.recorded = s.recorded) : ∃ t', hostCycle s' = .next t' ∧ agrees t t' := by
  obtain ⟨-, -, -, -, -, -, -, -, hstatus, hpending, -, -, hqueue, -⟩ := id h
  have hrest (q : List HostAction) := agrees_setQueue h q
  rcases hostCycle_next hstep with ⟨hq, rfl⟩ | ⟨q, hq, rfl⟩ | ⟨off, q, hq, halign, hbusy, rfl⟩ | ⟨v, q, hq, hidle, rfl⟩ |
    ⟨off, v, q, hq, hidle, halign, hoff, rfl⟩ | ⟨q, hq, rfl⟩ | ⟨q, hq, rfl⟩ <;> rw [hqueue] at hq
  case inl => exact ⟨_, hostCycle_noAction hq, agrees_respond h _⟩
  case inr.inl => exact ⟨_, hostCycle_idle hq, agrees_respond (hrest q) _⟩
  case inr.inr.inl =>
    have hheld : wordHeld s off.toNat = true := by
      by_contra hbottom
      simp [hbottom] at hrecorded
    obtain ⟨hheld', hword⟩ := agrees_readWord h hheld
    refine ⟨_, hostCycle_read hq halign (hpending ▸ hbusy), ?_⟩
    rw [hheld, hheld', hword, State.recordUnless_true, State.recordUnless_true]
    exact agrees_respond (hrest q) _
  case inr.inr.inr.inl =>
    exact ⟨_, hostCycle_writeCmd hq (hpending ▸ hidle), agrees_respond (agrees_issue (hrest q) v) _⟩
  case inr.inr.inr.inr.inl =>
    exact ⟨_, hostCycle_write hq (hpending ▸ hidle) halign hoff, agrees_respond (agrees_writeWord (hrest q) _ v) _⟩
  case inr.inr.inr.inr.inr.inl =>
    rw [hstatus]
    exact ⟨_, hostCycle_poll hq, agrees_respond (hrest _) _⟩
  case inr.inr.inr.inr.inr.inr => exact ⟨_, hostCycle_reset hq, agrees_applyReset (hrest q)⟩

/- ---- Steps and runs ---- -/

theorem agrees_step {s s' t : State} (h : agrees s s') (hstep : step s = .next t) (hrecorded : t.recorded = s.recorded) :
    ∃ t', step s' = .next t' ∧ agrees t t' := by
  obtain ⟨-, -, -, -, -, -, -, -, -, hpending, hwait, -, hqueue, -⟩ := id h
  rcases step_turn s with ⟨cmd, hp, hw, hr⟩ | hhost
  · rw [step_core hp hw hr] at hstep
    rw [step_core (hpending ▸ hp) (hwait ▸ hw) (hqueue ▸ hr)]
    exact agrees_coreStep h hstep hrecorded
  · rw [step_host hhost] at hstep
    rw [hpending, hwait, hqueue] at hhost
    rw [step_host hhost]
    exact agrees_hostCycle (agrees_tick h) hstep (by rw [State.tick_recorded, hrecorded])

/-- A run only adds to the record of model faults. -/
theorem run_recorded {s t : State} {k : Nat} (h : Sys2Proof.core.run k s = .next t) :
    ∃ l, t.recorded = s.recorded ++ l := by
  induction k generalizing s with
  | zero =>
    cases h
    exact ⟨[], (List.append_nil _).symm⟩
  | succ k ih =>
    obtain ⟨u, hstep, hrest⟩ := run_succ_next h
    obtain ⟨l, hl⟩ := step_recorded hstep
    obtain ⟨m, hm⟩ := ih hrest
    exact ⟨l ++ m, by rw [hm, hl, List.append_assoc]⟩

/-- A run that records nothing records nothing in its first step, nor after it. -/
theorem recorded_of_run_succ {s t u : State} {k : Nat} (hstep : step s = .next u)
    (hrest : Sys2Proof.core.run k u = .next t) (h : t.recorded = s.recorded) : u.recorded = s.recorded := by
  obtain ⟨l, hl⟩ := step_recorded hstep
  obtain ⟨m, hm⟩ := run_recorded hrest
  have hnone : l ++ m = [] := by simpa [hl, hm] using h
  rw [hl, (List.append_eq_nil_iff.mp hnone).1, List.append_nil]

/-- Settles O53, by induction on the number of steps, each by `agrees_step`. -/
theorem unrecordedRunsIgnoreBottomPatterns : Obligations.UnrecordedRunsIgnoreBottomPatterns := by
  intro k
  induction k with
  | zero =>
    intro s s' t h hrun _
    cases hrun
    exact ⟨s', rfl, h⟩
  | succ k ih =>
    intro s s' t h hrun hrecorded
    obtain ⟨u, hstep, hrest⟩ := run_succ_next hrun
    have hfirst := recorded_of_run_succ hstep hrest hrecorded
    obtain ⟨u', hstep', hagrees⟩ := agrees_step h hstep hfirst
    obtain ⟨t', hrest', hagrees'⟩ := ih u u' t hagrees hrest (hrecorded.trans hfirst.symm)
    exact ⟨t', (run_next k hstep').trans hrest', hagrees'⟩

end Sys2Proof.Proofs
end

section
/-! PROOFS. Several cores in one system: a step of one and an access to one leave the others (20_memory.md R50, R58). -/

namespace Sys2Proof.Proofs

open Sys2Proof.Machine

theorem stepAt_other {sys sys' : System} {k j : Nat} (hstep : sys.stepAt k = .next sys') (hj : j ≠ k) :
    sys'[j]? = sys[j]? := by
  unfold System.stepAt at hstep
  split at hstep
  · cases hstep
    rfl
  · split at hstep
    · cases hstep
      exact List.getElem?_set_ne hj.symm
    · cases hstep
    · cases hstep

/-- An access asks each core of the system by itself. -/
theorem request_getElem? {sys : System} {j : Nat} {m : Instance} (hm : sys[j]? = some m) (a : SystemAccess) :
    (sys.request a)[j]? = some (m.request a) := by
  rw [System.request, List.getElem?_map, hm, Option.map_some]

/-- R50: an access in the window of a core is queued at its offset. -/
theorem request_inside (m : Instance) {a : SystemAccess} {off : Nat} (hoff : off < 1024) (ha : a.addr = m.base + off) :
    m.request a =
      { m with core := { m.core with queue := m.core.queue ++ [.access (a.toAccess (BitVec.ofNat 10 off))] } } := by
  have hoffset : m.offset? a.addr = some (BitVec.ofNat 10 off) := by
    rw [Instance.offset?, if_pos (by omega), ha, Nat.add_sub_cancel_left]
  rw [Instance.request, hoffset]

theorem request_outside (m : Instance) {a : SystemAccess} (ha : a.addr < m.base ∨ m.base + 1024 ≤ a.addr) :
    m.request a = m := by
  have hoffset : m.offset? a.addr = none := if_neg (by omega)
  rw [Instance.request, hoffset]

/-- Settles O54: `stepAt_other`, and each core asked by itself, inside its window and outside. -/
theorem instancesShareNothing : Obligations.InstancesShareNothing := by
  refine ⟨fun _ _ _ _ => stepAt_other, fun sys j m off bytes v hm hoff => ⟨?write, ?read⟩, fun sys j m a hm ha => ?outside⟩
  case write => rw [request_getElem? hm, request_inside m hoff rfl]; rfl
  case read => rw [request_getElem? hm, request_inside m hoff rfl]; rfl
  case outside => rw [request_getElem? hm, request_outside m ha]

end Sys2Proof.Proofs
end

section
/-! PROOFS. Runs of the host's pseudo-instructions: POLL, the loading of ST, and a command line with its POLL, of which ROUND has five (30_encoding.md R71, R73). -/

namespace Sys2Proof.Proofs

open Sys2Proof.Machine Sys2Proof.Safety

/- ---- POLL ---- -/

theorem run_add {s t : State} {m : Nat} (k : Nat) (h : Sys2Proof.core.run m s = .next t) :
    Sys2Proof.core.run (m + k) s = Sys2Proof.core.run k t := by
  induction m generalizing s with
  | zero =>
    cases h
    rw [Nat.zero_add]
  | succ m ih =>
    obtain ⟨u, hstep, hrest⟩ := run_succ_next h
    rw [Nat.add_right_comm, run_next _ hstep, ih hrest]

/-- What a command leaves does not depend on the bus answer or the countdown, and it changes neither. -/
theorem commandResult_bus (i : Instr) (s : State) (n : Nat) (r : Response) :
    commandResult i ((s.setWait n).respond r) = ((commandResult i s).setWait n).respond r := by
  cases hcheck : check i s.status with
  | some e =>
    rw [commandResult_of_check_eq_some hcheck, commandResult_of_check_eq_some (by simpa using hcheck)]
    rfl
  | none =>
    rw [commandResult_of_check_eq_none hcheck, commandResult_of_check_eq_none (by simpa using hcheck)]
    cases i <;> rfl

theorem coreStep_bus {cmd : Word} {s t : State} (n : Nat) (r : Response) (h : coreStep cmd s = .next t) :
    coreStep cmd ((s.setWait n).respond r) = .next (t.respond r) := by
  obtain ⟨i, hdecode, rfl⟩ | ⟨why, hdecode, rfl⟩ := coreStep_next h
  · rw [coreStep_command _ hdecode, commandResult_bus]
    rfl
  · exact coreStep_illegal _ hdecode

/-- R73, R196: while the latency lasts POLL reads STATUS again, and changes only the countdown and the bus answer. -/
theorem run_poll_wait {s : State} {cmd : Word} {q : List HostAction} (hpending : s.pending = some cmd)
    (hbusy : s.status.busy = true) (hq : s.queue = .poll :: q) (n : Nat) (hwait : s.wait = n) :
    ∃ r, Sys2Proof.core.run n s = .next ((s.setWait 0).respond r) := by
  induction n generalizing s with
  | zero =>
    have hsame : (s.setWait 0).respond s.resp = s := by rw [← hwait]; rfl
    exact ⟨s.resp, by rw [hsame]; rfl⟩
  | succ n ih =>
    have htick : s.tick = s.setWait n := by simp [State.tick, hpending, hwait]
    have hstep : step s = .next ((s.setWait n).respond (.data (statusWord s.status))) := by
      rw [step_host (.inr (.inl (by omega))), htick, hostCycle_poll (s := s.setWait n) hq,
        State.setWait_status, if_pos hbusy, ← hq]
      rfl
    obtain ⟨r, hrun⟩ := ih (s := (s.setWait n).respond (.data (statusWord s.status))) hpending hbusy hq rfl
    exact ⟨r, (run_next n hstep).trans hrun⟩

/-- R73: the POLL of an idle core is done in one bus cycle. -/
theorem step_poll_idle {s : State} {q : List HostAction} (hidle : s.pending = none) (hbusy : s.status.busy = false)
    (hq : s.queue = .poll :: q) : step s = .next ((s.setQueue q).respond (.data (statusWord s.status))) := by
  rw [step_idle hidle, hostCycle_poll hq, hbusy, if_neg Bool.false_ne_true]

/-- Settles O51: the POLL loops while the latency lasts, then comes the core's step, then the last read of STATUS. -/
theorem pollCompletes : Obligations.PollCompletes := by
  intro s cmd q hpending hbusy hq
  obtain ⟨t, hcore⟩ := coreStep_total cmd s
  obtain ⟨r, hloop⟩ := run_poll_wait hpending hbusy hq s.wait rfl
  obtain ⟨htbusy, htpending⟩ : t.status.busy = false ∧ t.pending = none := by
    obtain ⟨i, -, rfl⟩ | ⟨why, -, rfl⟩ := coreStep_next hcore <;> exact ⟨rfl, rfl⟩
  have hreset : resetNow s.queue = false := by rw [hq, resetNow]
  have hstep : step ((s.setWait 0).respond r) = .next (t.respond r) :=
    (step_core (s := (s.setWait 0).respond r) hpending rfl hreset).trans (coreStep_bus 0 r hcore)
  have hpoll : step (t.respond r) = .next ((t.setQueue q).respond (.data (statusWord t.status))) :=
    step_poll_idle htpending htbusy ((coreStep_frame hcore).1.trans hq)
  exact ⟨t, hcore, ((run_add 2 hloop).trans (run_next 1 hstep)).trans (run_next 0 hpoll), htbusy, htpending⟩

/- ---- LDST ---- -/

/-- Bytes `4k..4k+3` of ST take the bytes of a word (R42). -/
def storeWord (st : Vector RegByte 16) (k : Fin 4) (v : Word) : Vector RegByte 16 :=
  tabulate fun i => if i.val / 4 = k.val then .value (byteOf v (i.val % 4)) else st[i]

theorem writeByte_ST (s : State) {off : Nat} (v : Word) (j : Nat) (h : off + j < 16) :
    writeByte s off v j = { s with ST := s.ST.set (off + j) (.value (byteOf v j)) } := by
  rw [writeByte, locate, dif_pos h, writeLoc]

theorem writeWord_ST (s : State) (k : Fin 4) (v : Word) :
    writeWord s (4 * k.val) v = { s with ST := storeWord s.ST k v } := by
  rw [writeWord, writeByte_ST _ _ _ (by omega), writeByte_ST _ _ _ (by omega), writeByte_ST _ _ _ (by omega),
    writeByte_ST _ _ _ (by omega)]
  congr 1
  ext1 i hi
  simp only [storeWord, tabulate_getElem, Vector.getElem_set]
  by_cases hword : i / 4 = k.val
  · obtain ⟨j, rfl⟩ : ∃ j : Fin 4, i = 4 * k.val + j.val := ⟨⟨i % 4, by omega⟩, by simp only; omega⟩
    rw [if_pos hword, show (4 * k.val + j.val) % 4 = j.val by omega]
    fin_cases j <;> simp
  · rw [if_neg hword, if_neg (by omega), if_neg (by omega), if_neg (by omega), if_neg (by omega)]
    rfl

/-- The word of bytes `4k..4k+3` of a block (R42, R73). -/
def blockWord (b : Block) (k : Fin 4) : Word :=
  wordOf (b[4 * k.val]'(by omega)) (b[4 * k.val + 1]'(by omega)) (b[4 * k.val + 2]'(by omega))
    (b[4 * k.val + 3]'(by omega))

theorem byteOf_blockWord (b : Block) (k j : Fin 4) : byteOf (blockWord b k) j = b[4 * k.val + j.val]'(by omega) := by
  obtain ⟨h0, h1, h2, h3⟩ := byteOf_wordOf (b[4 * k.val]'(by omega)) (b[4 * k.val + 1]'(by omega))
    (b[4 * k.val + 2]'(by omega)) (b[4 * k.val + 3]'(by omega))
  fin_cases j
  · exact h0
  · exact h1
  · exact h2
  · exact h3

theorem toList_block (b : Block) : b.toList = [b[0], b[1], b[2], b[3], b[4], b[5], b[6], b[7], b[8], b[9], b[10],
    b[11], b[12], b[13], b[14], b[15]] := by
  refine List.ext_getElem (by simp) fun i h1 _ => ?_
  have hi : i < 16 := by simpa using h1
  interval_cases i <;> rfl

theorem expand_ldst (b : Block) : HostLine.expand (.ldst b) =
    [wrAction 0 (blockWord b 0), wrAction 4 (blockWord b 1), wrAction 8 (blockWord b 2), wrAction 12 (blockWord b 3)] := by
  rw [HostLine.expand, toList_block]
  rfl

/-- The offsets of ST's four words (R47). -/
theorem offset_ST (k : Fin 4) :
    (BitVec.ofNat 10 (4 * k.val)).toNat = 4 * k.val ∧ BitVec.ofNat 10 (4 * k.val) ≠ cmdOffset := by
  revert k
  decide

theorem step_wr_ST {s : State} (k : Fin 4) {v : Word} {q : List HostAction} (hidle : s.pending = none)
    (hq : s.queue = wrAction (4 * k.val) v :: q) :
    step s = .next { s with ST := storeWord s.ST k v, queue := q, resp := .written } := by
  obtain ⟨hoff, hcmd⟩ := offset_ST k
  rw [step_write_idle hidle (by omega) hcmd hq, hoff, writeWord_ST]
  rfl

theorem storeWord_getElem (st : Vector RegByte 16) (k : Fin 4) (v : Word) (l j : Fin 4) :
    (storeWord st k v)[4 * l.val + j.val]'(by omega) =
      if l = k then .value (byteOf v j) else st[4 * l.val + j.val]'(by omega) := by
  have hword : (4 * l.val + j.val) / 4 = l.val := by omega
  have hbyte : (4 * l.val + j.val) % 4 = j.val := by omega
  simp only [storeWord, tabulate_getElem, hword, hbyte, Fin.ext_iff, Fin.getElem_fin]

/-- The four words of a block, stored one after another, are the block. -/
theorem storeWord_block (st : Vector RegByte 16) (b : Block) :
    storeWord (storeWord (storeWord (storeWord st 0 (blockWord b 0)) 1 (blockWord b 1)) 2 (blockWord b 2)) 3
      (blockWord b 3) = known b := by
  ext1 i hi
  obtain ⟨k, j, rfl⟩ : ∃ k j : Fin 4, i = 4 * k.val + j.val :=
    ⟨⟨i / 4, by omega⟩, ⟨i % 4, by omega⟩, by simp only; omega⟩
  rw [known_getElem, ← byteOf_blockWord, storeWord_getElem, storeWord_getElem, storeWord_getElem, storeWord_getElem]
  fin_cases k <;> rfl

/-- Settles O55: four word writes, and the words of a block stored in ST are the block. -/
theorem ldstLoadsState : Obligations.LdstLoadsState := by
  intro s b q hidle hq
  rw [expand_ldst] at hq
  rw [← storeWord_block s.ST b]
  refine Eq.trans (run_next 3 (step_wr_ST 0 hidle hq)) ?_
  refine Eq.trans (run_next 2 (step_wr_ST 1 hidle rfl)) ?_
  refine Eq.trans (run_next 1 (step_wr_ST 2 hidle rfl)) ?_
  exact run_next 0 (step_wr_ST 3 hidle rfl)

/- ---- A command line ---- -/

/-- The registers of a state: all of it but the in-flight command, the bus and the numbering of the free values. -/
def registers (s : State) : State :=
  { s with
    CMD := 0, status := { s.status with busy := false }, pending := none, wait := 0, draws := 0, queue := []
    resp := .quiet }

/-- The command reaches no free value: it leaves no word of W ⊥ (R146), and takes its round key from the words that are there (R27). -/
def drawsNothing : Instr → Prop
  | .expandkey _ => False
  | .loadrk r => r ≤ 14
  | _ => True

theorem roundBytes_registers (s : State) {r : Nat} (hr : r ≤ 14) : roundBytes (registers s) r = roundBytes s r := by
  refine roundBytes_congr fun m j => ?_
  have hword : 4 * r + m.val < 60 := by omega
  rw [scheduleByte, dif_pos hword, scheduleByte, dif_pos hword]
  rfl

/-- R35: what such a command makes of the registers depends on the registers alone. -/
theorem registers_commandResult {i : Instr} (hi : drawsNothing i) (s : State) :
    registers (commandResult i s) = commandResult i (registers s) := by
  have hsame : check i (registers s).status = check i s.status := by cases i <;> rfl
  cases hcheck : check i s.status with
  | some e =>
    rw [commandResult_of_check_eq_some hcheck, commandResult_of_check_eq_some (hsame.trans hcheck)]
    rfl
  | none =>
    rw [commandResult_of_check_eq_none hcheck, commandResult_of_check_eq_none (hsame.trans hcheck)]
    cases i with
    | expandkey n => exact hi.elim
    | loadrk r =>
      simp only [commandEffect, commandWrites, operandBytes, readRound, roundBytes_registers s hi]
      rfl
    | _ => rfl

/-- R71, R73: a command line on an idle core issues its command, polls, and ends with what the command makes of the registers. -/
theorem run_commandActions {s : State} {c : AsmCommand} {q : List HostAction} (hidle : s.pending = none)
    (hwf : c.instr.wf = true) (hi : drawsNothing c.instr) (hq : s.queue = commandActions c ++ q) :
    ∃ n t, Sys2Proof.core.run n s = .next t ∧ registers t = commandResult c.instr (registers s) ∧ t.pending = none ∧
      t.status.busy = false ∧ t.queue = q := by
  have hissue := step_write_cmd hidle hq
  obtain ⟨t, hcore, hrun, hbusy, hpending⟩ :=
    pollCompletes (((s.setQueue (.poll :: q)).issue (assemble c)).respond .written) (assemble c) q rfl rfl rfl
  cases (coreStep_command _ (decodeOfEncode c.instr hwf)).symm.trans hcore
  refine ⟨_, _, (run_next _ hissue).trans hrun, ?_, hpending, hbusy, rfl⟩
  exact registers_commandResult hi (((s.setQueue (.poll :: q)).issue (assemble c)).respond .written)

/-- Command lines one after another run their commands one after another. -/
theorem run_commandLines {s : State} {cs : List AsmCommand} {q : List HostAction} (hidle : s.pending = none)
    (hbusy : s.status.busy = false) (hcs : ∀ c ∈ cs, c.instr.wf = true ∧ drawsNothing c.instr)
    (hq : s.queue = cs.flatMap commandActions ++ q) :
    ∃ n t, Sys2Proof.core.run n s = .next t ∧
      registers t = cs.foldl (fun u c => commandResult c.instr u) (registers s) ∧ t.pending = none ∧
      t.status.busy = false ∧ t.queue = q := by
  induction cs generalizing s with
  | nil => exact ⟨0, s, rfl, rfl, hidle, hbusy, hq⟩
  | cons c cs ih =>
    rw [List.flatMap_cons, List.append_assoc] at hq
    obtain ⟨⟨hwf, hi⟩, hrest⟩ := List.forall_mem_cons.mp hcs
    obtain ⟨n, u, hrun, hregisters, hidle', hbusy', hq'⟩ := run_commandActions hidle hwf hi hq
    obtain ⟨m, t, hrun', hregisters', hdone⟩ := ih hidle' hbusy' hrest hq'
    exact ⟨n + m, t, (run_add m hrun).trans hrun', by rw [hregisters', hregisters, List.foldl_cons], hdone⟩

/- ---- ROUND ---- -/

/-- The command lines of ROUND (R73). -/
def roundLines (r : Nat) : List AsmCommand :=
  [.subbytes none, .shiftrows none, .mixcolumns none, .loadrk r, .addroundkey none none]

theorem expand_round (r : Nat) : HostLine.expand (.round r) = (roundLines r).flatMap commandActions := rfl

theorem commandResult_of_exec {i : Instr} {s t : State} (h : exec i s = .next t) : commandResult i s = t := by
  cases (exec_eq i s).symm.trans h
  rfl

/-- R27, R145: in a state that meets the invariants, the words of an available round hold values. -/
theorem schedule_roundWords {s : State} {r : Nat} (htriple : legalTriple s.status) (hinv : scheduleInv s)
    (hksv : s.status.ksv = true) (hr : r ≤ s.status.ksNr.toNat) :
    r ≤ 14 ∧ ∃ w : Vector KWord 4, ∀ (m : Fin 4) (h : 4 * r + m.val < 60), s.W[4 * r + m.val] = known w[m] := by
  obtain ⟨hnk, hnr⟩ := legalTriple_schedule htriple hksv
  obtain ⟨key, -, hwords, -⟩ := hinv.1 hksv
  refine ⟨by omega, roundWords (expandKey s.status.ksNk.toNat key) r, fun m h => ?_⟩
  rw [roundWords, Fin.getElem_fin, tabulate_getElem]
  exact hwords ⟨4 * r + m.val, h⟩ (by show 4 * r + m.val < _; omega)

/-- The commands of ROUND on registers that hold a block and the words of the round: each by its own rule. -/
theorem foldl_roundLines {u : State} {b : Block} {r : Nat} {w : Vector KWord 4} (hST : u.ST = known b) (hr : r ≤ 14)
    (havail : roundAvailable r u.status) (hw : ∀ m : Fin 4, u.W[4 * r + m.val]'(by omega) = known w[m]) :
    (roundLines r).foldl (fun u c => commandResult c.instr u) u =
      ((u.setRK (roundKey w)).setST (addRoundKey (mixColumns (shiftRows (subBytes b))) (roundKey w))).setErr 0 := by
  have hsubbytes := commandResult_of_exec (exec_subbytes hST)
  have hshiftrows (x : Block) : commandResult (.shiftrows 16) ((u.setST x).setErr 0) = (u.setST (shiftRows x)).setErr 0 :=
    commandResult_of_exec (exec_shiftrows rfl)
  have hmixcolumns (x : Block) :
      commandResult (.mixcolumns 16) ((u.setST x).setErr 0) = (u.setST (mixColumns x)).setErr 0 :=
    commandResult_of_exec (exec_mixcolumns rfl)
  have hloadrk (x : Block) :
      commandResult (.loadrk r) ((u.setST x).setErr 0) = ((u.setRK (roundKey w)).setST x).setErr 0 :=
    commandResult_of_exec (exec_loadrk hr havail hw)
  have haddroundkey (x k : Block) : commandResult (.addroundkey 16 16) (((u.setRK k).setST x).setErr 0) =
      ((u.setRK k).setST (addRoundKey x k)).setErr 0 :=
    commandResult_of_exec (exec_addroundkey rfl rfl)
  simp only [roundLines, List.foldl_cons, List.foldl_nil, AsmCommand.instr, Option.getD_none]
  rw [hsubbytes, hshiftrows, hmixcolumns, hloadrk, haddroundkey]

/-- Settles O56: the five lines by `run_commandLines`, their commands by `foldl_roundLines`, the words by the schedule invariant. -/
theorem roundMacroComputesAesRound : Obligations.RoundMacroComputesAesRound := by
  intro s b r q ⟨hbusy, _, _, _, htriple⟩ hinv hidle hksv hr hST hq
  obtain ⟨hr14, w, hw⟩ := schedule_roundWords htriple hinv hksv hr
  rw [expand_round] at hq
  have hlines : ∀ c ∈ roundLines r, c.instr.wf = true ∧ drawsNothing c.instr := by
    have hwf : r < 16 := by omega
    simp [roundLines, AsmCommand.instr, Instr.wf, drawsNothing, hwf, hr14]
  obtain ⟨n, t, hrun, hregisters, htidle, htbusy, htq⟩ :=
    run_commandLines hidle (hbusy.trans (by rw [hidle]; rfl)) hlines hq
  rw [foldl_roundLines (u := registers s) hST hr14 ⟨hksv, hr⟩ fun m => hw m (by omega)] at hregisters
  have hfield {α : Type} (f : State → α) := congrArg f hregisters
  refine ⟨n, t, roundKey w, hrun, fun m j => ?word, hfield State.ST, hfield State.RK,
    hfield (fun u => u.status.err), htbusy, htidle, htq, hfield State.W, hfield State.CK, hfield State.BA,
    hfield State.BB, hfield State.BY, hfield State.recorded⟩
  case word =>
    have hbytes : roundBytes s r = known (roundKey w) := roundBytes_eq_known hr14 fun m => hw m (by omega)
    rw [← roundBytes_getElem, getElem_congr_coll hbytes, known_getElem]

end Sys2Proof.Proofs
end
